-- ==== Sys2Proof/Word.lean ====
section
/-! DEFINITION. The value types of the core (spec/00_scope.md R10 to R15): bytes, 4-byte words, byte
sequences of a fixed length, the 4×4 state and the 32-bit control values. Types only; every operation on
them stands under Machine/. -/

namespace Sys2Proof

/-- A byte: an unsigned value 0..255, bit 7 most significant (R10). -/
abbrev Byte := BitVec 8

/-- A 32-bit control register or command word (R9). -/
abbrev Reg32 := BitVec 32

/-- `bytes[n]`: a sequence of n bytes indexed 0..n-1 (R11). -/
abbrev Bytes (n : Nat) := Vector Byte n

/-- A block: 16 bytes (R8). -/
abbrev Block := Bytes 16

/-- A word: the tuple of 4 bytes (b0, b1, b2, b3), never a 32-bit integer (R12). -/
structure Word where
  b0 : Byte
  b1 : Byte
  b2 : Byte
  b3 : Byte
  deriving DecidableEq, Repr, Inhabited

/-- The 4×4 byte state, as its four rows: the byte in row r and column c is the c-th of the r-th row (R13). -/
abbrev StateMatrix := Vector (Vector Byte 4) 4

end Sys2Proof
end

