-- ==== Sys2Proof/Syntax.lean ====
section
/-! DEFINITION. The ten commands, one constructor per row of spec/opcode_table.json (spec/30_encoding.md R70, R77). -/

namespace Sys2Proof

/-- A command. Operands other than CFG's immediate and the IVP bit are implicit (R75). -/
inductive Instr where
  /-- `CFG bits`: bits is IMM16, the key length in bits (R75). -/
  | cfg (bits : Nat)
  /-- `KEXP` -/
  | kexp
  /-- `ENCB` -/
  | encb
  /-- `DECB` -/
  | decb
  /-- `ENC.ECB`, with the operand `iv` when ivp (R74, R80). -/
  | encEcb (ivp : Bool)
  /-- `ENC.CBC` -/
  | encCbc (ivp : Bool)
  /-- `ENC.CFB` -/
  | encCfb (ivp : Bool)
  /-- `DEC.ECB` -/
  | decEcb (ivp : Bool)
  /-- `DEC.CBC` -/
  | decCbc (ivp : Bool)
  /-- `DEC.CFB` -/
  | decCfb (ivp : Bool)
  deriving DecidableEq, Repr

end Sys2Proof
end

