-- ==== Sys2Proof/WellFormed.lean ====
section
/-! DEFINITION. Which terms of `Instr` are commands: the one operand with a range is CFG's immediate. -/

namespace Sys2Proof

/-- "`CFG <n>` with n a decimal or 0x-hexadecimal integer 0..65535" (spec/30_encoding.md R80, R75); the IVP bit
of the message commands may be 0 or 1 (R74), and no other command has an operand. -/
def Instr.wellFormed : Instr → Bool
  | .cfg bits => decide (bits < 65536)
  | .kexp => true
  | .encb => true
  | .decb => true
  | .encEcb _ => true
  | .encCbc _ => true
  | .encCfb _ => true
  | .decEcb _ => true
  | .decCbc _ => true
  | .decCfb _ => true

end Sys2Proof
end

