-- ==== Sys2Proof/Decode.lean ====
section
/-! DEFINITION. The decoder of spec/30_encoding.md R76, total on all 32-bit words and rejecting by name, and the
encoder written from the format and the opcode map of R71 to R75. -/

namespace Sys2Proof

/-- Why a word is illegal (R78). -/
inductive IllegalWord where
  /-- Z ≠ 0 -/
  | nonzeroZ
  /-- OPC ∈ {0, 5, ..., 15} -/
  | reservedOpc
  /-- OPC = 4 and MODE = 3 -/
  | reservedMode
  /-- a field the command does not use is not zero -/
  | strayField
  deriving DecidableEq, Repr

/-- OPC = w[31:28] (R71). -/
def opcField (w : Reg32) : BitVec 4 := w.extractLsb' 28 4

/-- MODE = w[27:26]. -/
def modeField (w : Reg32) : BitVec 2 := w.extractLsb' 26 2

/-- DIR = w[25]: set to decrypt (R74). -/
def dirBit (w : Reg32) : Bool := w.getLsbD 25

/-- IVP = w[24]: set when an IV is given (R74). -/
def ivpBit (w : Reg32) : Bool := w.getLsbD 24

/-- Z = w[23:16], zero in every command. -/
def zField (w : Reg32) : BitVec 8 := w.extractLsb' 16 8

/-- IMM16 = w[15:0]. -/
def immField (w : Reg32) : BitVec 16 := w.extractLsb' 0 16

/-- `decode` of R76. -/
def decode (w : Reg32) : Except IllegalWord Instr :=
  if zField w ≠ 0 then .error .nonzeroZ
  else if opcField w = 1 then
    if modeField w = 0 ∧ dirBit w = false ∧ ivpBit w = false then .ok (.cfg (immField w).toNat)
    else .error .strayField
  else if opcField w = 2 then
    if modeField w = 0 ∧ dirBit w = false ∧ ivpBit w = false ∧ immField w = 0 then .ok .kexp
    else .error .strayField
  else if opcField w = 3 then
    if modeField w = 0 ∧ ivpBit w = false ∧ immField w = 0 then
      .ok (if dirBit w then .decb else .encb)
    else .error .strayField
  else if opcField w = 4 then
    if immField w ≠ 0 then .error .strayField
    else if modeField w = 0 then .ok (if dirBit w then .decEcb (ivpBit w) else .encEcb (ivpBit w))
    else if modeField w = 1 then .ok (if dirBit w then .decCbc (ivpBit w) else .encCbc (ivpBit w))
    else if modeField w = 2 then .ok (if dirBit w then .decCfb (ivpBit w) else .encCfb (ivpBit w))
    else .error .reservedMode
  else .error .reservedOpc

/-- Format C (R71): the fields from bit 31 down, Z = 0. -/
def formatC (opc : BitVec 4) (mode : BitVec 2) (dir ivp : Bool) (imm : BitVec 16) : Reg32 :=
  opc ++ mode ++ BitVec.ofBool dir ++ BitVec.ofBool ivp ++ 0#8 ++ imm

/-- The word of a command, from the OPC, MODE, DIR and IVP columns of R77. -/
def encode : Instr → Reg32
  | .cfg bits => formatC 1 0 false false (BitVec.ofNat 16 bits)
  | .kexp => formatC 2 0 false false 0
  | .encb => formatC 3 0 false false 0
  | .decb => formatC 3 0 true false 0
  | .encEcb ivp => formatC 4 0 false ivp 0
  | .encCbc ivp => formatC 4 1 false ivp 0
  | .encCfb ivp => formatC 4 2 false ivp 0
  | .decEcb ivp => formatC 4 0 true ivp 0
  | .decCbc ivp => formatC 4 1 true ivp 0
  | .decCfb ivp => formatC 4 2 true ivp 0

/-- The 32-bit word whose bits below nbits are those of w, bit 0 least significant, and whose other bits are 0:
the command word is handed over as one number, with no byte order (spec/20_memory.md R57, R65; log entry 12). -/
def tableWord (nbits w : Nat) : Reg32 := BitVec.ofNat 32 (w % 2 ^ nbits)

/-- The command the decoder reads from a word of spec/opcode_table.json, none where it is illegal. -/
def decodeTableWord (nbits w : Nat) : Option Instr :=
  match decode (tableWord nbits w) with
  | .ok i => some i
  | .error _ => none

end Sys2Proof
end

