-- ==== Sys2Proof/Config.lean ====
section
/-! DEFINITION. The range of the open parameter BUF_BYTES and the free values the spec leaves
unspecified. A free value has no body: no proof can learn a value of it. -/

namespace Sys2Proof

/-- The byte spaces of spec/20_memory.md R50. -/
inductive Space where
  | key | iv | rk | st | chain | ibuf | obuf
  deriving DecidableEq, Repr

/-- The sequencing counters of spec/10_state.md R36, each with the range R36 gives it. -/
structure Counters where
  /-- the schedule word index i, at most 59 -/
  wordIndex : Fin 60
  /-- the round index, at most 14 -/
  round : Fin 15
  /-- the block index b, below 2^32 / 16 -/
  block : Fin 268435456
  /-- the xtime repetition count of Rcon, at most 9 -/
  rconCount : Fin 10
  deriving DecidableEq, Repr, Inhabited

/-- The values the parameter BUF_BYTES, the capacity in bytes of each of IBUF and OBUF, can have: "a natural number,
at least 16, at most 2^32 − 1" (spec/00_scope.md R9). The model takes it as an argument, in `State.bufBytes`
(log entry 6). -/
abbrev Config.BufBytesLegal (n : Nat) : Prop := 16 ≤ n ∧ n ≤ 4294967295

/-- FREE VALUE. Byte k of a space where the spec leaves it unspecified: after reset (spec/10_state.md R37, R38)
and, for ST and CHAIN, after a command (R29, R30). The first argument numbers the draw (log entries 2 to 5). -/
opaque Config.freeByte : Nat → Space → Nat → Byte

/-- FREE VALUE. The sequencing counters where the spec leaves them unspecified: after reset (spec/10_state.md
R38) and after a command (spec/93_implementation_defined.md U4). The argument numbers the draw (log entry 15). -/
opaque Config.freeCounters : Nat → Counters

end Sys2Proof
end

