-- ==== Sys2Proof/Machine/State.lean ====
section
/-! DEFINITION. The state of one core instance (spec/10_state.md R20, R34, R36), what the host and the platform
can do to it (spec/20_memory.md R56, spec/70_reset_and_hazards.md R200) as plain data, the reasons a step can
stop, and the state after reset. -/

namespace Sys2Proof.Machine

/-- The error kinds of spec/60_exceptions.md R180. -/
inductive ErrorKind where
  | invalidKeyLength | lengthError | missingIV | illegalCommand
  deriving DecidableEq, Repr

/-- The control registers (spec/20_memory.md R50). -/
inductive ControlReg where
  | cfg | status | len | olen
  deriving DecidableEq, Repr

/-- A host transaction as the host may ask for it; those of spec/20_memory.md R56 exist, the others are refused. -/
inductive Transaction where
  /-- `HostWriteByte(space, k, v)` -/
  | writeByte (space : Space) (k : Nat) (v : Byte)
  /-- A whole 32-bit write of a control register; `HostWriteLEN(n)` for LEN. -/
  | writeReg (r : ControlReg) (v : Reg32)
  /-- `HostReadByte(space, k)` -/
  | readByte (space : Space) (k : Nat)
  /-- `HostReadReg(r)` -/
  | readReg (r : ControlReg)
  /-- `HostCommand(w)` -/
  | command (w : Reg32)
  deriving DecidableEq, Repr

/-- What reaches the core from outside: a host transaction, or the platform's reset (log entries 1 and 7). -/
inductive Input where
  | transaction (t : Transaction)
  | reset
  deriving DecidableEq, Repr

/-- The value a read transaction returned (log entry 8). -/
inductive Answer where
  | byte (v : Byte)
  | reg (v : Reg32)
  deriving DecidableEq, Repr

/-- A data space as the bytes that have been written since the last reset, addresses strictly rising. An
unlisted address holds no written value (log entry 3). -/
abbrev Memory := List Host.Cell

/-- The canonical form of a `Memory`: addresses strictly rising. An unlisted address holds no value, so no entry
can equal what it holds. -/
abbrev Memory.wf (m : Memory) : Prop := (m.map Prod.fst).Pairwise (· < ·)

/-- The state: the spec's (R20, and the counters of R34 and R36), then the parameter BUF_BYTES, then the model's own
four fields. -/
structure State where
  /-- KEY, 32 bytes (R21) -/
  key : Bytes 32
  /-- IV, 16 bytes (R22) -/
  iv : Bytes 16
  /-- CFG (R23) -/
  cfg : Reg32
  /-- STATUS (R25) -/
  status : Reg32
  /-- LEN (R26) -/
  len : Reg32
  /-- OLEN (R27) -/
  olen : Reg32
  /-- RK, 240 bytes (R28) -/
  rk : Bytes 240
  /-- ST, the 4×4 state (R29) -/
  st : StateMatrix
  /-- CHAIN (R30) -/
  chain : Block
  /-- the sequencing counters (R36) -/
  counters : Counters
  /-- IBUF (spec/20_memory.md R51) -/
  ibuf : Memory
  /-- OBUF (spec/20_memory.md R52) -/
  obuf : Memory
  /-- The parameter BUF_BYTES (spec/00_scope.md R9), fixed for one core: no step writes it (log entry 6). -/
  bufBytes : Nat
  /-- MODEL'S OWN: the draw the unwritten bytes of IBUF and OBUF read from (log entry 5). -/
  bufDraw : Nat
  /-- MODEL'S OWN: how many draws of free values have been made (log entry 5). -/
  draws : Nat
  /-- MODEL'S OWN: what the host and the platform do next, in order (log entry 1). -/
  inputs : List Input
  /-- MODEL'S OWN: what the last read transaction returned (log entry 8). -/
  answer : Option Answer
  deriving DecidableEq, Repr

/-- The core never stops with a fault: "nothing else can make a command fail, fault, hang or produce an undefined
result" (spec/60_exceptions.md R180); an error ends its command in a next state (R186). So no constructor. -/
inductive Fault where
  deriving DecidableEq, Repr

/-- Why the model gives a case no meaning. -/
inductive Refusal where
  /-- An instruction with no meaning yet; raised by `exec` alone (safe: the model stops). No arm raises it now. -/
  | notModelled (mnemonic : String)
  /-- A host transaction outside the table of spec/20_memory.md R56 (spec/93_implementation_defined.md U3, U7);
  raised by `transact` (safe: the spec says the model refuses it). -/
  | noSuchTransaction
  /-- An ENC.* or DEC.* command with LEN > BUF_BYTES (spec/20_memory.md R53, U3); raised by `messageCommand` (safe:
  the spec says the model refuses it); its checks come first (log entry 19). -/
  | beyondBuffer
  deriving DecidableEq, Repr

/-- Every byte of a register space at the free values of one draw. -/
@[irreducible] def freeBytes (draw : Nat) (space : Space) (n : Nat) : Bytes n :=
  Vector.ofFn fun k => Config.freeByte draw space k.val

/-- ST at the free values of one draw; the byte in row r, column c is number r + 4c, as in a block (R29). -/
@[irreducible] def freeMatrix (draw : Nat) : StateMatrix :=
  Vector.ofFn fun r => Vector.ofFn fun c => Config.freeByte draw .st (r.val + 4 * c.val)

/-- After reset (spec/10_state.md R38): the control registers 0; every byte of KEY, IV, RK, ST, CHAIN, IBUF and
OBUF and the counters unspecified, that is free values of draw 0 (DESIGN CHOICE, log entries 2, 3, 5 and 15); the
core idle, with nothing yet asked of it. The argument is BUF_BYTES (spec/00_scope.md R9; log entry 6). -/
def State.resetWith (bufBytes : Nat) : State where
  key := freeBytes 0 .key 32
  iv := freeBytes 0 .iv 16
  cfg := 0
  status := 0
  len := 0
  olen := 0
  rk := freeBytes 0 .rk 240
  st := freeMatrix 0
  chain := freeBytes 0 .chain 16
  counters := Config.freeCounters 0
  ibuf := []
  obuf := []
  bufBytes := bufBytes
  bufDraw := 0
  draws := 1
  inputs := []
  answer := none

/-- After reset, of the core whose BUF_BYTES is 2^32 - 1, the largest legal value (DESIGN CHOICE, log entry 6). -/
def State.reset : State := State.resetWith 4294967295

end Sys2Proof.Machine
end

