-- ==== Sys2Proof/Machine/Flags.lean ====
section
/-! DEFINITION. The core has no flags (spec/10_state.md R33); the status a command leaves is STATUS.ERR and OLEN.
Their codes, their writes, and the length validation. -/

namespace Sys2Proof.Machine

/-- The code of an error kind in STATUS.ERR (spec/10_state.md R25, spec/60_exceptions.md R180); 0 is OK. -/
def errorCode : ErrorKind → BitVec 3
  | .invalidKeyLength => 1
  | .lengthError => 2
  | .missingIV => 3
  | .illegalCommand => 4

/-- STATUS.ERR = STATUS[2:0] (spec/10_state.md R25). -/
def statusErr (s : State) : BitVec 3 := s.status.extractLsb' 0 3

/-- `STATUS.ERR <- code`; bits 31:3 read as 0 (spec/10_state.md R25). -/
def setErr (code : BitVec 3) (s : State) : State := { s with status := code.setWidth 32 }

/-- `OLEN <- n` (spec/10_state.md R27). -/
def setOlen (n : Reg32) (s : State) : State := { s with olen := n }

/-- `LengthOk` (spec/60_exceptions.md R184). -/
def lengthOk (len : Nat) : Bool := len % 16 == 0

end Sys2Proof.Machine
end

