-- ==== Sys2Proof/Machine/Ops.lean ====
section
/-! DEFINITION. The named operations over memories and registers, error entry (spec/60_exceptions.md R186) and
the successful end of a command. There is no return from an error (R189). -/

namespace Sys2Proof.Machine

/-- The value written at an address, if any has been. -/
def Memory.find? : Memory → Nat → Option Byte
  | [], _ => none
  | (b, v) :: m, a => if a = b then some v else Memory.find? m a

/-- Write one byte, keeping the addresses strictly rising. -/
def Memory.write : Memory → Nat → Byte → Memory
  | [], a, v => [(a, v)]
  | (b, u) :: m, a, v =>
    if a < b then (a, v) :: (b, u) :: m
    else if a = b then (a, v) :: m
    else (b, u) :: Memory.write m a v

/-- Write a byte sequence at addr, addr + 1, ... in increasing order (spec/20_memory.md R54). -/
def Memory.writeSeq : Memory → Nat → List Byte → Memory
  | m, _, [] => m
  | m, a, v :: vs => Memory.writeSeq (Memory.write m a v) (a + 1) vs

/-- The bytes of v with the first ones replaced by the sequence bs. -/
@[irreducible] def overlay {n : Nat} (v : Bytes n) (bs : List Byte) : Bytes n :=
  Vector.ofFn fun k => bs.getD k.val v[k]

/-- The byte sequence X[0..n-1] of a register space (spec/00_scope.md R11). -/
def firstBytes {m : Nat} (v : Bytes m) (n : Nat) : List Byte := v.toList.take n

/-- Byte k of a sequence. No command reads outside a sequence while CFG is legal (log entry 11). -/
def seqByte (bs : List Byte) (k : Nat) : Byte := bs.getD k 0

/-- `IBUF[a]`; a byte nothing has written is unspecified (spec/10_state.md R37; log entry 3). -/
def ibufByte (s : State) (a : Nat) : Byte := (s.ibuf.find? a).getD (Config.freeByte s.bufDraw .ibuf a)

/-- `OBUF[a]`; a byte nothing has written is unspecified (spec/10_state.md R37; log entry 3). -/
def obufByte (s : State) (a : Nat) : Byte := (s.obuf.find? a).getD (Config.freeByte s.bufDraw .obuf a)

/-- `MemRead(IBUF, addr, 16)` (spec/20_memory.md R54). -/
def memRead (s : State) (addr : Nat) : Block := Vector.ofFn fun k => ibufByte s (addr + k.val)

/-- `MemWrite(OBUF, addr, 16, v)` (spec/20_memory.md R54). -/
def memWrite (addr : Nat) (v : Block) (s : State) : State :=
  { s with obuf := s.obuf.writeSeq addr v.toList }

/-- `RK[0..n-1] <- bs` for a sequence of n bytes; the bytes of RK after it keep what they held (spec/10_state.md R28). -/
def writeRk (bs : List Byte) (s : State) : State := { s with rk := overlay s.rk bs }

/-- `CHAIN[0..15] <- v` (spec/44_modes.md R162). -/
def setChain (v : Block) (s : State) : State := { s with chain := v }

/-- `CFG <- v` (spec/42_key_expander.md R112). -/
def setCfg (v : Reg32) (s : State) : State := { s with cfg := v }

/-- The counters have been walked and their content is unspecified (spec/10_state.md R34, R36,
spec/93_implementation_defined.md U4): a fresh draw (log entry 15). -/
def leaveCounters (s : State) : State :=
  { s with counters := Config.freeCounters s.draws, draws := s.draws + 1 }

/-- ST has been used and its content is unspecified (spec/10_state.md R29; log entry 4). -/
def leaveSt (s : State) : State := { s with st := freeMatrix s.draws, draws := s.draws + 1 }

/-- CHAIN has been used and its content is unspecified (spec/10_state.md R30; log entry 4). -/
def leaveChain (s : State) : State := { s with chain := freeBytes s.draws .chain 16, draws := s.draws + 1 }

/-- ERROR ENTRY, `raise E` (spec/60_exceptions.md R186): `STATUS.ERR <- code(E)`, `OLEN <- 0`, nothing else. -/
def raise (e : ErrorKind) (s : State) : State := setOlen 0 (setErr (errorCode e) s)

/-- The successful end of a command: `STATUS.ERR <- 0; OLEN <- n` (spec/10_state.md R25, R27). -/
def succeed (n : Reg32) (s : State) : State := setOlen n (setErr 0 s)

end Sys2Proof.Machine
end

