-- ==== Sys2Proof/Machine/Gf.lean ====
section
/-! DEFINITION. GF(2^8) arithmetic (spec/40_gf_arithmetic.md): xtime, the multiplier, Rcon. -/

namespace Sys2Proof.Machine

/-- `xtime` (R91): the top bit is tested before the shift, the reduction is xored in after it. -/
def xtime (a : Byte) : Byte := if a.getLsbD 7 then (a <<< 1) ^^^ 0x1b else a <<< 1

/-- One turn of the loop of `gmul` for bit k of b, on the pair (p, a). -/
def gmulStep (b : Byte) (pa : Byte × Byte) (k : Nat) : Byte × Byte :=
  (if b.getLsbD k then pa.1 ^^^ pa.2 else pa.1, xtime pa.2)

/-- `gmul` (R92): shift and add over the bits 0..7 of b. -/
def gmul (a b : Byte) : Byte := ((List.range 8).foldl (gmulStep b) (0, a)).1

/-- x^n, by n repetitions of `xtime` from 0x01. -/
def xPower : Nat → Byte
  | 0 => 0x01
  | n + 1 => xtime (xPower n)

/-- `Rcon(n)` for n ≥ 1 (R95): x^(n-1) in byte 0. Rcon(0) is never asked for (log entry 11). -/
def rcon (n : Nat) : Word := ⟨xPower (n - 1), 0, 0, 0⟩

end Sys2Proof.Machine
end

