-- ==== Sys2Proof/Machine/Operands.lean ====
section
/-! DEFINITION. The implicit operands of the commands (spec/10_state.md R35): the fields of CFG, the key, the
schedule in RK, the message length, and the checks made from them before any work (spec/60_exceptions.md R185). -/

namespace Sys2Proof.Machine

/-- CFG.KLB = CFG[15:0] (spec/10_state.md R23). -/
def cfgKlb (s : State) : Nat := (s.cfg.extractLsb' 0 16).toNat

/-- CFG.NK = CFG[19:16]. -/
def cfgNk (s : State) : Nat := (s.cfg.extractLsb' 16 4).toNat

/-- CFG.NR = CFG[23:20]. -/
def cfgNr (s : State) : Nat := (s.cfg.extractLsb' 20 4).toNat

/-- CFG.VALID = CFG[31]. -/
def cfgValid (s : State) : Bool := s.cfg.getLsbD 31

/-- The key of a command: KEY[0..4·Nk-1] (spec/10_state.md R21). -/
def keyOperand (s : State) : List Byte := firstBytes s.key (4 * cfgNk s)

/-- RK[0..16·(Nr+1)-1], the schedule of the command's configuration (spec/10_state.md R28). -/
def schedule (s : State) : List Byte := firstBytes s.rk (16 * (cfgNr s + 1))

/-- n = LEN / 16, the number of blocks of a message (spec/44_modes.md §1). -/
def blockCount (s : State) : Nat := s.len.toNat / 16

/-- The check of KEXP, ENCB and DECB (spec/60_exceptions.md R185): the error raised, if any. -/
def configCheck (s : State) : Option ErrorKind :=
  if cfgValid s = false then some .invalidKeyLength else none

/-- `MsgChecks(needsIV, IVP)` (spec/60_exceptions.md R185): the first error in the fixed order, if any. -/
def msgChecks (needsIV ivp : Bool) (s : State) : Option ErrorKind :=
  if cfgValid s = false then some .invalidKeyLength
  else if lengthOk s.len.toNat = false then some .lengthError
  else if needsIV = true ∧ ivp = false then some .missingIV
  else none

end Sys2Proof.Machine
end

