-- ==== Sys2Proof/Machine/KeyExpander.lean ====
section
/-! DEFINITION. The key expander (spec/42_key_expander.md): Nk and Nr, the word functions, the expansion, and the
commands CFG and KEXP. -/

namespace Sys2Proof.Machine

/-- `DeriveConfig` (R111): (Nk, Nr), or none for InvalidKeyLength. -/
def deriveConfig (keyLengthBits : Nat) : Option (Nat × Nat) :=
  if keyLengthBits = 128 then some (4, 10)
  else if keyLengthBits = 192 then some (6, 12)
  else if keyLengthBits = 256 then some (8, 14)
  else none

/-- The CFG register of a configuration: VALID = 1, bits 30:24 zero, NR, NK, KLB (spec/10_state.md R23). -/
def cfgWord (keyLengthBits nk nr : Nat) : Reg32 :=
  1#1 ++ 0#7 ++ BitVec.ofNat 4 nr ++ BitVec.ofNat 4 nk ++ BitVec.ofNat 16 keyLengthBits

/-- The xor of two words, bytewise (R113). -/
def xorWord (a b : Word) : Word := ⟨a.b0 ^^^ b.b0, a.b1 ^^^ b.b1, a.b2 ^^^ b.b2, a.b3 ^^^ b.b3⟩

/-- `RotWord` (R114). -/
def rotWord (w : Word) : Word := ⟨w.b1, w.b2, w.b3, w.b0⟩

/-- `SubWord` (R115). -/
def subWord (w : Word) : Word := ⟨sBox w.b0, sBox w.b1, sBox w.b2, sBox w.b3⟩

/-- `T(i, prev, Nk)` (R117). -/
def tWord (i : Nat) (prev : Word) (nk : Nat) : Word :=
  if i % nk = 0 then xorWord (subWord (rotWord prev)) (rcon (i / nk))
  else if nk > 6 ∧ i % nk = 4 then subWord prev
  else prev

/-- Word w[i] of a byte sequence (spec/00_scope.md R12). -/
def wordOf (bs : List Byte) (i : Nat) : Word :=
  ⟨seqByte bs (4 * i), seqByte bs (4 * i + 1), seqByte bs (4 * i + 2), seqByte bs (4 * i + 3)⟩

/-- The four bytes of a word in increasing index. -/
def wordBytes (w : Word) : List Byte := [w.b0, w.b1, w.b2, w.b3]

/-- One turn of the loop of `Expand` (R118): append w[i] = w[i-Nk] ^ T(i, w[i-1]) to the words before it. -/
def expandStep (nk i : Nat) (rk : List Byte) : List Byte :=
  rk ++ wordBytes (xorWord (wordOf rk (i - nk)) (tWord i (wordOf rk (i - 1)) nk))

/-- The first n turns of the loop, i = Nk, Nk+1, ..., Nk+n-1 in that order. -/
def expandLoop (nk : Nat) (key : List Byte) : Nat → List Byte
  | 0 => key
  | n + 1 => expandStep nk (nk + n) (expandLoop nk key n)

/-- `Expand(key, Nk, Nr)` (R118), for a key of 4·Nk bytes. -/
def expand (key : List Byte) (nk nr : Nat) : List Byte := expandLoop nk key (4 * (nr + 1) - nk)

/-- `RK[0..16(Nr+1)-1] <- Expand(KEY[0..4Nk-1], Nk, Nr)`, once per command that needs round keys (R120). -/
def expandKey (s : State) : State := writeRk (expand (keyOperand s) (cfgNk s) (cfgNr s)) s

/-- CFG bits (R112). -/
def execCfg (bits : Nat) (s : State) : Host.Outcome State Fault Refusal :=
  match deriveConfig bits with
  | none => .next (raise .invalidKeyLength (setCfg 0 s))
  | some (nk, nr) => .next (succeed 0 (setCfg (cfgWord bits nk nr) s))

/-- KEXP (R119). -/
def execKexp (s : State) : Host.Outcome State Fault Refusal :=
  match configCheck s with
  | some e => .next (raise e s)
  | none => .next (succeed (BitVec.ofNat 32 (16 * (cfgNr s + 1))) (leaveCounters (expandKey s)))

end Sys2Proof.Machine
end

