-- ==== Sys2Proof/Machine/Round.lean ====
section
/-! DEFINITION. The round transform engine (spec/43_round_engine.md): the layers, single-block encryption and
decryption, and the commands ENCB and DECB. -/

namespace Sys2Proof.Machine

/-- S[r][c] (spec/00_scope.md R13). -/
def cell (S : StateMatrix) (r c : Fin 4) : Byte := S[r][c]

/-- The state with the byte f r c in row r, column c. -/
def matrixOf (f : Fin 4 → Fin 4 → Byte) : StateMatrix := Vector.ofFn fun r => Vector.ofFn fun c => f r c

/-- Column c of the state, top to bottom (spec/00_scope.md R13). -/
def column (S : StateMatrix) (c : Fin 4) : Word := ⟨cell S 0 c, cell S 1 c, cell S 2 c, cell S 3 c⟩

/-- Byte r of a word. -/
def wordByte (w : Word) (r : Fin 4) : Byte := [w.b0, w.b1, w.b2, w.b3][r]

/-- `LoadState` (R131), column-major: S[r][c] = blk[r + 4c]. -/
def loadState (blk : Block) : StateMatrix := matrixOf fun r c => blk[r.val + 4 * c.val]

/-- `StoreState` (R132): out[r + 4c] = S[r][c], so out[k] = S[k mod 4][k / 4]. -/
def storeState (S : StateMatrix) : Block :=
  Vector.ofFn fun k => cell S ⟨k.val % 4, by omega⟩ ⟨k.val / 4, by omega⟩

/-- `SubBytes` (R133). -/
def subBytes (S : StateMatrix) : StateMatrix := matrixOf fun r c => sBox (cell S r c)

/-- `InvSubBytes` (R134). -/
def invSubBytes (S : StateMatrix) : StateMatrix := matrixOf fun r c => invSBox (cell S r c)

/-- `ShiftRows` (R135): S'[r][c] = S[r][(c + r) mod 4]; the sum in `Fin 4` is that modulo 4. -/
def shiftRows (S : StateMatrix) : StateMatrix := matrixOf fun r c => cell S r (c + r)

/-- `InvShiftRows` (R136): S'[r][c] = S[r][(c - r) mod 4]. -/
def invShiftRows (S : StateMatrix) : StateMatrix := matrixOf fun r c => cell S r (c - r)

/-- One column of `MixColumns` (R137); entries equal to 1 are plain xor. -/
def mixColumn (w : Word) : Word :=
  ⟨gmul 0x02 w.b0 ^^^ gmul 0x03 w.b1 ^^^ w.b2 ^^^ w.b3,
   w.b0 ^^^ gmul 0x02 w.b1 ^^^ gmul 0x03 w.b2 ^^^ w.b3,
   w.b0 ^^^ w.b1 ^^^ gmul 0x02 w.b2 ^^^ gmul 0x03 w.b3,
   gmul 0x03 w.b0 ^^^ w.b1 ^^^ w.b2 ^^^ gmul 0x02 w.b3⟩

/-- One column of `InvMixColumns` (R138). -/
def invMixColumn (w : Word) : Word :=
  ⟨gmul 0x0e w.b0 ^^^ gmul 0x0b w.b1 ^^^ gmul 0x0d w.b2 ^^^ gmul 0x09 w.b3,
   gmul 0x09 w.b0 ^^^ gmul 0x0e w.b1 ^^^ gmul 0x0b w.b2 ^^^ gmul 0x0d w.b3,
   gmul 0x0d w.b0 ^^^ gmul 0x09 w.b1 ^^^ gmul 0x0e w.b2 ^^^ gmul 0x0b w.b3,
   gmul 0x0b w.b0 ^^^ gmul 0x0d w.b1 ^^^ gmul 0x09 w.b2 ^^^ gmul 0x0e w.b3⟩

/-- `MixColumns` (R137). -/
def mixColumns (S : StateMatrix) : StateMatrix := matrixOf fun r c => wordByte (mixColumn (column S c)) r

/-- `InvMixColumns` (R138). -/
def invMixColumns (S : StateMatrix) : StateMatrix := matrixOf fun r c => wordByte (invMixColumn (column S c)) r

/-- `AddRoundKey` (R139): S'[r][c] = S[r][c] ^ rk[16·round + 4c + r]. -/
def addRoundKey (S : StateMatrix) (rk : List Byte) (round : Nat) : StateMatrix :=
  matrixOf fun r c => cell S r c ^^^ seqByte rk (16 * round + 4 * c.val + r.val)

/-- A full round of `Cipher` (R145). -/
def cipherRound (rk : List Byte) (round : Nat) (S : StateMatrix) : StateMatrix :=
  addRoundKey (mixColumns (shiftRows (subBytes S))) rk round

/-- The full rounds 1..n of `Cipher`, in increasing order. -/
def cipherRounds (rk : List Byte) : Nat → StateMatrix → StateMatrix
  | 0, S => S
  | n + 1, S => cipherRound rk (n + 1) (cipherRounds rk n S)

/-- `Cipher(in, rk, Nr)` (R145). -/
def cipher (blk : Block) (rk : List Byte) (nr : Nat) : Block :=
  storeState (addRoundKey (shiftRows (subBytes (cipherRounds rk (nr - 1) (addRoundKey (loadState blk) rk 0)))) rk nr)

/-- A full round of `InvCipher` (R146). -/
def invCipherRound (rk : List Byte) (round : Nat) (S : StateMatrix) : StateMatrix :=
  invSubBytes (invShiftRows (invMixColumns (addRoundKey S rk round)))

/-- The full rounds n downto 1 of `InvCipher`. -/
def invCipherRounds (rk : List Byte) : Nat → StateMatrix → StateMatrix
  | 0, S => S
  | n + 1, S => invCipherRounds rk n (invCipherRound rk (n + 1) S)

/-- `InvCipher(in, rk, Nr)` (R146). -/
def invCipher (blk : Block) (rk : List Byte) (nr : Nat) : Block :=
  storeState (addRoundKey (invCipherRounds rk (nr - 1)
    (invSubBytes (invShiftRows (addRoundKey (loadState blk) rk nr)))) rk 0)

/-- `EncryptBlock(in, key, Nk, Nr)` (R147). -/
def encryptBlock (blk : Block) (key : List Byte) (nk nr : Nat) : Block := cipher blk (expand key nk nr) nr

/-- `DecryptBlock(in, key, Nk, Nr)` (R147). -/
def decryptBlock (blk : Block) (key : List Byte) (nk nr : Nat) : Block := invCipher blk (expand key nk nr) nr

/-- What ENCB and DECB share (R150, R151): the check, one expansion, one block from IBUF[0..15] to OBUF[0..15]
through the block function f of (in, rk, Nr). ST and the counters are left unspecified. -/
def blockCommand (f : Block → List Byte → Nat → Block) (s : State) : Host.Outcome State Fault Refusal :=
  match configCheck s with
  | some e => .next (raise e s)
  | none =>
    let t := expandKey s
    .next (succeed 16 (leaveCounters (leaveSt (memWrite 0 (f (memRead t 0) (schedule t) (cfgNr t)) t))))

/-- ENCB (R150). -/
def execEncb (s : State) : Host.Outcome State Fault Refusal := blockCommand cipher s

/-- DECB (R151). -/
def execDecb (s : State) : Host.Outcome State Fault Refusal := blockCommand invCipher s

end Sys2Proof.Machine
end

