-- ==== Sys2Proof/Machine/Modes.lean ====
section
/-! DEFINITION. The mode-of-operation layer (spec/44_modes.md): ECB, CBC and CFB, as the pure functions of R165 and
as the six commands that walk the block loop over IBUF, OBUF and CHAIN. -/

namespace Sys2Proof.Machine

/-- `XorBlock` (R161). -/
def xorBlock (a b : Block) : Block := Vector.ofFn fun k => a[k] ^^^ b[k]

/-- `EcbEnc` (R165). -/
def ecbEnc (rk : List Byte) (nr : Nat) : List Block → List Block
  | [] => []
  | x :: xs => cipher x rk nr :: ecbEnc rk nr xs

/-- `EcbDec` (R165). -/
def ecbDec (rk : List Byte) (nr : Nat) : List Block → List Block
  | [] => []
  | x :: xs => invCipher x rk nr :: ecbDec rk nr xs

/-- `CbcEnc` (R165); the first block argument is the chaining value. -/
def cbcEnc (rk : List Byte) (nr : Nat) : Block → List Block → List Block
  | _, [] => []
  | chain, x :: xs => cipher (xorBlock x chain) rk nr :: cbcEnc rk nr (cipher (xorBlock x chain) rk nr) xs

/-- `CbcDec` (R165). -/
def cbcDec (rk : List Byte) (nr : Nat) : Block → List Block → List Block
  | _, [] => []
  | chain, x :: xs => xorBlock (invCipher x rk nr) chain :: cbcDec rk nr x xs

/-- `CfbEnc` (R165). -/
def cfbEnc (rk : List Byte) (nr : Nat) : Block → List Block → List Block
  | _, [] => []
  | chain, x :: xs => xorBlock x (cipher chain rk nr) :: cfbEnc rk nr (xorBlock x (cipher chain rk nr)) xs

/-- `CfbDec` (R165): the forward `Cipher`, on the chaining value. -/
def cfbDec (rk : List Byte) (nr : Nat) : Block → List Block → List Block
  | _, [] => []
  | chain, x :: xs => xorBlock x (cipher chain rk nr) :: cfbDec rk nr x xs

/-- The block loop (R163): f 0, then f 1, ..., then f (n-1). -/
def forBlocks (f : Nat → State → State) : Nat → State → State
  | 0, s => s
  | n + 1, s => f n (forBlocks f n s)

/-- One turn of the loop: from in[b] and CHAIN, the block written to out[b], and then the new CHAIN (R164). -/
def chainTurn (out : Block → Block → Block) (newChain : Block → Block → Block) (b : Nat) (s : State) : State :=
  let x := memRead s (16 * b)
  let o := out x s.chain
  setChain (newChain x o) (memWrite (16 * b) o s)

/-- One turn of the loop without chaining (R164). -/
def plainTurn (out : Block → Block) (b : Nat) (s : State) : State :=
  memWrite (16 * b) (out (memRead s (16 * b))) s

/-- The body of ENC.ECB for block b (R166). -/
def ecbEncTurn (b : Nat) (s : State) : State := plainTurn (fun x => cipher x (schedule s) (cfgNr s)) b s

/-- The body of DEC.ECB for block b (R169). -/
def ecbDecTurn (b : Nat) (s : State) : State := plainTurn (fun x => invCipher x (schedule s) (cfgNr s)) b s

/-- The body of ENC.CBC for block b (R167). -/
def cbcEncTurn (b : Nat) (s : State) : State :=
  chainTurn (fun x chain => cipher (xorBlock x chain) (schedule s) (cfgNr s)) (fun _ o => o) b s

/-- The body of DEC.CBC for block b (R170). -/
def cbcDecTurn (b : Nat) (s : State) : State :=
  chainTurn (fun x chain => xorBlock (invCipher x (schedule s) (cfgNr s)) chain) (fun x _ => x) b s

/-- The body of ENC.CFB for block b (R168). -/
def cfbEncTurn (b : Nat) (s : State) : State :=
  chainTurn (fun x chain => xorBlock x (cipher chain (schedule s) (cfgNr s))) (fun _ o => o) b s

/-- The body of DEC.CFB for block b (R171): Cipher, not InvCipher. -/
def cfbDecTurn (b : Nat) (s : State) : State :=
  chainTurn (fun x chain => xorBlock x (cipher chain (schedule s) (cfgNr s))) (fun x _ => x) b s

/-- `CHAIN[0..15] <- IV[0..15]` (R162). -/
def loadChain (s : State) : State := setChain s.iv s

/-- The work of an ECB command: the expansion, then the loop; ST and the counters are left unspecified. -/
def plainWork (turn : Nat → State → State) (s : State) : State :=
  leaveCounters (leaveSt (forBlocks turn (blockCount s) (expandKey s)))

/-- The work of a CBC or CFB command: the expansion, CHAIN <- IV, then the loop; CHAIN too is left unspecified. -/
def chainWork (turn : Nat → State → State) (s : State) : State :=
  leaveCounters (leaveSt (leaveChain (forBlocks turn (blockCount s) (loadChain (expandKey s)))))

/-- The shape of every mode command (R160): the checks, the work, STATUS.ERR <- 0 and OLEN <- LEN. A LEN beyond
BUF_BYTES has no meaning and is refused (spec/20_memory.md R53; log entries 6 and 19). -/
def messageCommand (needsIV ivp : Bool) (work : State → State) (s : State) : Host.Outcome State Fault Refusal :=
  match msgChecks needsIV ivp s with
  | some e => .next (raise e s)
  | none =>
    if s.len.toNat ≤ s.bufBytes then .next (succeed s.len (work s))
    else .refused .beyondBuffer

/-- ENC.ECB (R166). -/
def execEncEcb (ivp : Bool) (s : State) : Host.Outcome State Fault Refusal :=
  messageCommand false ivp (plainWork ecbEncTurn) s

/-- ENC.CBC (R167). -/
def execEncCbc (ivp : Bool) (s : State) : Host.Outcome State Fault Refusal :=
  messageCommand true ivp (chainWork cbcEncTurn) s

/-- ENC.CFB (R168). -/
def execEncCfb (ivp : Bool) (s : State) : Host.Outcome State Fault Refusal :=
  messageCommand true ivp (chainWork cfbEncTurn) s

/-- DEC.ECB (R169). -/
def execDecEcb (ivp : Bool) (s : State) : Host.Outcome State Fault Refusal :=
  messageCommand false ivp (plainWork ecbDecTurn) s

/-- DEC.CBC (R170). -/
def execDecCbc (ivp : Bool) (s : State) : Host.Outcome State Fault Refusal :=
  messageCommand true ivp (chainWork cbcDecTurn) s

/-- DEC.CFB (R171). -/
def execDecCfb (ivp : Bool) (s : State) : Host.Outcome State Fault Refusal :=
  messageCommand true ivp (chainWork cfbDecTurn) s

end Sys2Proof.Machine
end

