-- ==== Sys2Proof/Machine/Dispatch.lean ====
section
/-! DEFINITION. The dispatch of a command to its meaning, one arm per row of spec/opcode_table.json. -/

namespace Sys2Proof.Machine

def exec (i : Instr) (s : State) : Host.Outcome State Fault Refusal :=
  match i with
  | .cfg bits => Sys2Proof.Machine.execCfg bits s
  | .kexp => Sys2Proof.Machine.execKexp s
  | .encb => Sys2Proof.Machine.execEncb s
  | .decb => Sys2Proof.Machine.execDecb s
  | .encEcb ivp => Sys2Proof.Machine.execEncEcb ivp s
  | .encCbc ivp => Sys2Proof.Machine.execEncCbc ivp s
  | .encCfb ivp => Sys2Proof.Machine.execEncCfb ivp s
  | .decEcb ivp => Sys2Proof.Machine.execDecEcb ivp s
  | .decCbc ivp => Sys2Proof.Machine.execDecCbc ivp s
  | .decCfb ivp => Sys2Proof.Machine.execDecCfb ivp s

end Sys2Proof.Machine
end

