-- ==== Sys2Proof/Machine/Port.lean ====
section
/-! DEFINITION. What reaches the core from outside: the host transactions of spec/20_memory.md R56, the issue of a
command word (spec/30_encoding.md R76), and the platform's reset (spec/70_reset_and_hazards.md R200). -/

namespace Sys2Proof.Machine

/-- `HostCommand(w)` (spec/30_encoding.md R76): a legal word runs by its command's rule, an illegal one raises
IllegalCommand (spec/60_exceptions.md R187). -/
def hostCommand (w : Reg32) (s : State) : Host.Outcome State Fault Refusal :=
  match decode w with
  | .ok i => exec i s
  | .error _ => .next (raise .illegalCommand s)

/-- `HostWriteByte` (spec/20_memory.md R56): KEY, IV and IBUF inside their size. -/
def hostWriteByte (space : Space) (k : Nat) (v : Byte) (s : State) : Host.Outcome State Fault Refusal :=
  match space with
  | .key => if h : k < 32 then .next { s with key := s.key.set k v h } else .refused .noSuchTransaction
  | .iv => if h : k < 16 then .next { s with iv := s.iv.set k v h } else .refused .noSuchTransaction
  | .ibuf =>
    if k < s.bufBytes then .next { s with ibuf := s.ibuf.write k v } else .refused .noSuchTransaction
  | .obuf | .rk | .st | .chain => .refused .noSuchTransaction

/-- `HostWriteLEN` (spec/20_memory.md R56); no other control register is host writable. -/
def hostWriteReg (r : ControlReg) (v : Reg32) (s : State) : Host.Outcome State Fault Refusal :=
  match r with
  | .len => .next { s with len := v }
  | .cfg | .status | .olen => .refused .noSuchTransaction

/-- The byte a `HostReadByte` returns (spec/20_memory.md R56), none where there is no such transaction. -/
def hostByte? (space : Space) (k : Nat) (s : State) : Option Byte :=
  match space with
  | .key => s.key[k]?
  | .iv => s.iv[k]?
  | .rk => s.rk[k]?
  | .ibuf => if k < s.bufBytes then some (ibufByte s k) else none
  | .obuf => if k < s.bufBytes then some (obufByte s k) else none
  | .st | .chain => none

/-- The value of a control register, for `HostReadReg` (spec/20_memory.md R56). -/
def controlValue (r : ControlReg) (s : State) : Reg32 :=
  match r with
  | .cfg => s.cfg
  | .status => s.status
  | .len => s.len
  | .olen => s.olen

/-- One host transaction (spec/20_memory.md R56). A read has no effect on the core: the value returned stands in
the model's own field `answer` (log entry 8). One outside the table does not exist and is refused (log entry 9). -/
def transact (t : Transaction) (s : State) : Host.Outcome State Fault Refusal :=
  match t with
  | .writeByte space k v => hostWriteByte space k v s
  | .writeReg r v => hostWriteReg r v s
  | .readByte space k =>
    match hostByte? space k s with
    | some v => .next { s with answer := some (.byte v) }
    | none => .refused .noSuchTransaction
  | .readReg r => .next { s with answer := some (.reg (controlValue r s)) }
  | .command w => hostCommand w s

/-- Reset of the instance (spec/70_reset_and_hazards.md R200): the control registers 0, every byte store and the
counters unspecified, from a fresh draw; the queue of the host and its last answer are outside the core. -/
def applyReset (s : State) : State :=
  { s with
    key := freeBytes s.draws .key 32
    iv := freeBytes s.draws .iv 16
    cfg := 0
    status := 0
    len := 0
    olen := 0
    rk := freeBytes s.draws .rk 240
    st := freeMatrix s.draws
    chain := freeBytes s.draws .chain 16
    counters := Config.freeCounters s.draws
    ibuf := []
    obuf := []
    bufDraw := s.draws
    draws := s.draws + 1 }

/-- One input, performed wholly before the next (spec/20_memory.md R56, R62). -/
def perform (i : Input) (s : State) : Host.Outcome State Fault Refusal :=
  match i with
  | .transaction t => transact t s
  | .reset => .next (applyReset s)

/-- The queue with a command word in front: the next thing the core is asked is that command (log entry 1). -/
def issueNext (w : Reg32) (s : State) : State := { s with inputs := .transaction (.command w) :: s.inputs }

/-- Take the next input off the queue and perform it; with none the core is idle, and idle keeps all state
(spec/60_exceptions.md R193; log entry 10). -/
def serveNext (s : State) : Host.Outcome State Fault Refusal :=
  match s.inputs with
  | [] => .next s
  | i :: rest => perform i { s with inputs := rest }

end Sys2Proof.Machine
end

