-- ==== Sys2Proof/Machine/Step.lean ====
section
/-! DEFINITION. One step of the machine, and the placing of a command word where the next step takes it from. -/

namespace Sys2Proof.Machine

/-- One step: the next host transaction or reset, as one atomic transition (spec/00_scope.md R16,
spec/70_reset_and_hazards.md R205). -/
def step (s : State) : Host.Outcome State Fault Refusal := serveNext s

/-- The core fetches nothing (spec/10_state.md R36): a command reaches it as the operand of the host's next
transaction, so that is where the word is placed (log entry 1). -/
def State.withFetchWord (s : State) (nbits w : Nat) : State := issueNext (tableWord nbits w) s

end Sys2Proof.Machine
end

