-- ==== Sys2Proof/Safety.lean ====
section
/-! DEFINITION. The terms claims are stated in: the invariant of the machine, what a command reads, and what a
command that succeeded or failed leaves. -/

namespace Sys2Proof.Machine

/-- The four values CFG reads as (spec/10_state.md R23). -/
abbrev CfgLegal (c : Reg32) : Prop := c = 0 ∨ c = 0x80A40080 ∨ c = 0x80C600C0 ∨ c = 0x80E80100

/-- A Cipher Configuration exists: CFG is one of the three values with VALID = 1 (spec/10_state.md R23). -/
abbrev Configured (s : State) : Prop := s.cfg = 0x80A40080 ∨ s.cfg = 0x80C600C0 ∨ s.cfg = 0x80E80100

/-- No listed address is outside the data space (spec/20_memory.md R50). -/
abbrev Memory.inRange (m : Memory) (bufBytes : Nat) : Prop := ∀ c ∈ m, c.1 < bufBytes

/-- The invariant of the machine: CFG legal (spec/10_state.md R24); STATUS one of the codes 0 to 4, bits 31:3
zero (R25); an error leaves OLEN = 0 (R27); BUF_BYTES legal (spec/00_scope.md R9); both data spaces canonical and
inside BUF_BYTES. -/
structure MachineInv (s : State) : Prop where
  cfg_legal : CfgLegal s.cfg
  status_legal : s.status.toNat ≤ 4
  error_olen : s.status ≠ 0 → s.olen = 0
  ibuf_wf : s.ibuf.wf
  obuf_wf : s.obuf.wf
  bufBytes_legal : Config.BufBytesLegal s.bufBytes
  ibuf_range : s.ibuf.inRange s.bufBytes
  obuf_range : s.obuf.inRange s.bufBytes

/-- A step that goes on. -/
def StepSafe (s : State) : Prop := ∃ t, step s = .next t

/-- A transaction of the table of spec/20_memory.md R56, on a core of the given BUF_BYTES. -/
def Transaction.inTable (bufBytes : Nat) : Transaction → Bool
  | .writeByte .key k _ => decide (k < 32)
  | .writeByte .iv k _ => decide (k < 16)
  | .writeByte .ibuf a _ => decide (a < bufBytes)
  | .writeByte .obuf _ _ => false
  | .writeByte .rk _ _ => false
  | .writeByte .st _ _ => false
  | .writeByte .chain _ _ => false
  | .writeReg .len _ => true
  | .writeReg .cfg _ => false
  | .writeReg .status _ => false
  | .writeReg .olen _ => false
  | .readByte .key k => decide (k < 32)
  | .readByte .iv k => decide (k < 16)
  | .readByte .rk k => decide (k < 240)
  | .readByte .ibuf a => decide (a < bufBytes)
  | .readByte .obuf a => decide (a < bufBytes)
  | .readByte .st _ => false
  | .readByte .chain _ => false
  | .readReg _ => true
  | .command _ => true

/-- The commands that expand the key and so need a configuration: all but CFG (spec/60_exceptions.md R181). -/
def needsConfig : Instr → Bool
  | .cfg _ => false
  | .kexp | .encb | .decb => true
  | .encEcb _ | .encCbc _ | .encCfb _ | .decEcb _ | .decCbc _ | .decCfb _ => true

/-- The message commands ENC.* and DEC.*, which read LEN (spec/60_exceptions.md R182). -/
def isMessage : Instr → Bool
  | .cfg _ | .kexp | .encb | .decb => false
  | .encEcb _ | .encCbc _ | .encCfb _ | .decEcb _ | .decCbc _ | .decCfb _ => true

/-- The commands of a mode that requires an IV (spec/44_modes.md R164). -/
def requiresIV : Instr → Bool
  | .cfg _ | .kexp | .encb | .decb | .encEcb _ | .decEcb _ => false
  | .encCbc _ | .encCfb _ | .decCbc _ | .decCfb _ => true

/-- The IVP bit of a command (spec/30_encoding.md R74). -/
def givesIV : Instr → Bool
  | .cfg _ | .kexp | .encb | .decb => false
  | .encEcb ivp | .encCbc ivp | .encCfb ivp | .decEcb ivp | .decCbc ivp | .decCfb ivp => ivp

/-- How many bytes of IBUF a command reads, and of OBUF it writes, when it succeeds (spec/10_state.md R35). -/
def dataLength : Instr → State → Nat
  | .cfg _, _ | .kexp, _ => 0
  | .encb, _ | .decb, _ => 16
  | .encEcb _, s | .encCbc _, s | .encCfb _, s | .decEcb _, s | .decCbc _, s | .decCfb _, s => s.len.toNat

/-- LEN is within the capacity of the buffers, where the command reads LEN: the platform's duty (spec/20_memory.md
R53). -/
abbrev FitsBuffer (i : Instr) (s : State) : Prop := isMessage i = true → s.len.toNat ≤ s.bufBytes

/-- What no command writes: KEY, IV, LEN and IBUF (spec/10_state.md R20, "core writes: never"), the parameter
BUF_BYTES, and the model's own fields that stand for the host. -/
structure OperandsKept (s t : State) : Prop where
  key : t.key = s.key
  iv : t.iv = s.iv
  len : t.len = s.len
  ibuf : t.ibuf = s.ibuf
  bufBytes : t.bufBytes = s.bufBytes
  bufDraw : t.bufDraw = s.bufDraw
  inputs : t.inputs = s.inputs
  answer : t.answer = s.answer

/-- RK after an expansion of s's key (spec/42_key_expander.md R118, R120): the schedule in RK[0..16(Nr+1)-1], and the
bytes after it as they were (spec/10_state.md R28). -/
structure ScheduleWritten (s t : State) : Prop where
  schedule : firstBytes t.rk (16 * (cfgNr s + 1)) = expand (keyOperand s) (cfgNk s) (cfgNr s)
  rest : ∀ k, 16 * (cfgNr s + 1) ≤ k → t.rk[k]? = s.rk[k]?

/-- in[0], ..., in[n-1], the blocks of a message (spec/20_memory.md R55). -/
def inBlocks (s : State) : List Block := (List.range (blockCount s)).map fun b => memRead s (16 * b)

/-- out[b], the block of OBUF at 16·b (spec/20_memory.md R55). -/
def outBlock (t : State) (b : Nat) : Block := Vector.ofFn fun k => obufByte t (16 * b + k.val)

/-- out[0], ..., out[n-1]. -/
def outBlocks (t : State) (n : Nat) : List Block := (List.range n).map (outBlock t)

/-- What a command whose output is the blocks `out` leaves when it succeeds with OLEN = olen: the blocks from
OBUF[0] on and every other byte of OBUF as it was, RK expanded, STATUS 0, and nothing else but ST, CHAIN and the
counters written (spec/10_state.md R35). -/
structure OutputDone (s t : State) (olen : Reg32) (out : List Block) : Prop where
  status : t.status = 0
  olen : t.olen = olen
  output : outBlocks t out.length = out
  obuf_frame : ∀ a, 16 * out.length ≤ a → obufByte t a = obufByte s a
  rk : ScheduleWritten s t
  cfg : t.cfg = s.cfg
  operands : OperandsKept s t

/-- The rule of a message command (spec/44_modes.md R166 to R171): `cmd` with each value of its IVP bit, whether it
needs an IV, whether it uses CHAIN, and its output blocks, for a LEN within BUF_BYTES (spec/20_memory.md R53). The
three errors, in the order of spec/60_exceptions.md R185, write STATUS and OLEN alone (R186); otherwise the command
succeeds. -/
structure MessageRule (cmd : Bool → Instr) (needsIV : Bool) (out : State → List Block) : Prop where
  no_config : ∀ ivp s, s.len.toNat ≤ s.bufBytes → cfgValid s = false →
    exec (cmd ivp) s = .next { s with status := 1, olen := 0 }
  length_error : ∀ ivp s, s.len.toNat ≤ s.bufBytes → cfgValid s = true → s.len.toNat % 16 ≠ 0 →
    exec (cmd ivp) s = .next { s with status := 2, olen := 0 }
  missing_iv : needsIV = true → ∀ s, s.len.toNat ≤ s.bufBytes → cfgValid s = true → s.len.toNat % 16 = 0 →
    exec (cmd false) s = .next { s with status := 3, olen := 0 }
  success : ∀ ivp s, s.len.toNat ≤ s.bufBytes → Configured s → s.len.toNat % 16 = 0 → (needsIV = true → ivp = true) →
    ∃ t, exec (cmd ivp) s = .next t ∧ OutputDone s t s.len (out s) ∧ (needsIV = false → t.chain = s.chain)

/-- The rule of a single-block command (spec/43_round_engine.md R150, R151). -/
structure BlockRule (cmd : Instr) (f : Block → List Byte → Nat → Nat → Block) : Prop where
  no_config : ∀ s, cfgValid s = false → exec cmd s = .next { s with status := 1, olen := 0 }
  success : ∀ s, Configured s →
    ∃ t, exec cmd s = .next t ∧
      OutputDone s t 16 [f (memRead s 0) (keyOperand s) (cfgNk s) (cfgNr s)] ∧ t.chain = s.chain

/-- The schedule of the configuration and key of a state (spec/42_key_expander.md R118). -/
def keySchedule (s : State) : List Byte := expand (keyOperand s) (cfgNk s) (cfgNr s)

end Sys2Proof.Machine
end

