-- ==== Sys2Proof/Certificates/Slice0/Obligations.lean ====
section
/-! DEFINITION. The statements about the model, for the provers; OBLIGATIONS.json lists them. -/

open Sys2Proof Sys2Proof.Machine

/-! ## Encoding -/

/-- The worked encodings of spec/30_encoding.md R82: the legal words decode to the commands they stand for, the
illegal ones to none. -/
def Obligations.WorkedEncodingsDecode : Prop :=
  decode 0x10000080 = .ok (.cfg 128) ∧ decode 0x10000040 = .ok (.cfg 64) ∧ decode 0x20000000 = .ok .kexp ∧
  decode 0x30000000 = .ok .encb ∧ decode 0x32000000 = .ok .decb ∧
  decode 0x40000000 = .ok (.encEcb false) ∧ decode 0x41000000 = .ok (.encEcb true) ∧
  decode 0x45000000 = .ok (.encCbc true) ∧ decode 0x49000000 = .ok (.encCfb true) ∧
  decode 0x42000000 = .ok (.decEcb false) ∧ decode 0x47000000 = .ok (.decCbc true) ∧
  decode 0x4B000000 = .ok (.decCfb true) ∧ decode 0x4A000000 = .ok (.decCfb false) ∧
  ∀ w ∈ ([0x00000000, 0x4C000000, 0x30010000, 0x20000001, 0x31000000, 0x50000000] : List Reg32),
    ∃ e, decode w = .error e

/-- Decode and encode agree on every well-formed command, with every operand at every value (spec/30_encoding.md R71
to R77). -/
def Obligations.DecodeOfEncodeIsTheCommand : Prop :=
  ∀ i : Instr, i.wellFormed = true → decode (encode i) = .ok i

/-- Each legal word has one meaning and is the encoding of it (spec/30_encoding.md R76, R77). -/
def Obligations.LegalWordIsTheEncodingOfItsCommand : Prop :=
  ∀ (w : Reg32) (i : Instr), decode w = .ok i → i.wellFormed = true ∧ encode i = w

/-- spec/30_encoding.md R78: a word is illegal exactly when one of the listed conditions on its fields holds, the
fields read off the number; an illegal word raises IllegalCommand, in every state, and nothing else changes. -/
def Obligations.IllegalWordsAndTheirEffect : Prop :=
  (∀ w : Reg32,
    (∃ e, decode w = .error e) ↔
      (let opc := w.toNat / 2 ^ 28
       let mode := w.toNat / 2 ^ 26 % 4
       let dir := w.toNat / 2 ^ 25 % 2
       let ivp := w.toNat / 2 ^ 24 % 2
       let z := w.toNat / 2 ^ 16 % 256
       let imm := w.toNat % 65536
       z ≠ 0 ∨ opc = 0 ∨ 5 ≤ opc ∨
       (opc = 1 ∧ (mode ≠ 0 ∨ dir ≠ 0 ∨ ivp ≠ 0)) ∨
       (opc = 2 ∧ (mode ≠ 0 ∨ dir ≠ 0 ∨ ivp ≠ 0 ∨ imm ≠ 0)) ∨
       (opc = 3 ∧ (mode ≠ 0 ∨ ivp ≠ 0 ∨ imm ≠ 0)) ∨
       (opc = 4 ∧ (mode = 3 ∨ imm ≠ 0)))) ∧
  (∀ (w : Reg32) (s : State), (∃ e, decode w = .error e) →
    hostCommand w s = .next { s with status := 4, olen := 0 }) ∧
  (∃ e, decode 0x00000000 = .error e) ∧ (∃ e, decode 0xFFFFFFFF = .error e)

/-- spec/30_encoding.md R77: a word w selects the row of a command when (w & mask) == match, the command then decoded
is that row's with the free field of the row, and a word that selects no row is illegal. -/
def Obligations.OpcodeRowsSelectTheirCommands : Prop :=
  ∀ w : Reg32,
    ((w &&& 0xFFFF0000 = 0x10000000) ↔ decode w = .ok (.cfg (w.toNat % 65536))) ∧
    ((w &&& 0xFFFFFFFF = 0x20000000) ↔ decode w = .ok .kexp) ∧
    ((w &&& 0xFFFFFFFF = 0x30000000) ↔ decode w = .ok .encb) ∧
    ((w &&& 0xFFFFFFFF = 0x32000000) ↔ decode w = .ok .decb) ∧
    ((w &&& 0xFEFFFFFF = 0x40000000) ↔ decode w = .ok (.encEcb (w.getLsbD 24))) ∧
    ((w &&& 0xFEFFFFFF = 0x44000000) ↔ decode w = .ok (.encCbc (w.getLsbD 24))) ∧
    ((w &&& 0xFEFFFFFF = 0x48000000) ↔ decode w = .ok (.encCfb (w.getLsbD 24))) ∧
    ((w &&& 0xFEFFFFFF = 0x42000000) ↔ decode w = .ok (.decEcb (w.getLsbD 24))) ∧
    ((w &&& 0xFEFFFFFF = 0x46000000) ↔ decode w = .ok (.decCbc (w.getLsbD 24))) ∧
    ((w &&& 0xFEFFFFFF = 0x4A000000) ↔ decode w = .ok (.decCfb (w.getLsbD 24))) ∧
    ((∃ e, decode w = .error e) ↔
      (w &&& 0xFFFF0000 ≠ 0x10000000 ∧ w ≠ 0x20000000 ∧ w ≠ 0x30000000 ∧ w ≠ 0x32000000 ∧
       ∀ m ∈ ([0x40000000, 0x44000000, 0x48000000, 0x42000000, 0x46000000, 0x4A000000] : List Reg32),
         w &&& 0xFEFFFFFF ≠ m))

/-! ## GF(2^8) arithmetic and the ROMs -/

/-- spec/40_gf_arithmetic.md R91: xtime bit by bit, its corner cases, and that it is a bijection. -/
def Obligations.XtimeBitByBit : Prop :=
  (∀ a : Byte,
    (xtime a).getLsbD 0 = a.getLsbD 7 ∧ (xtime a).getLsbD 1 = (a.getLsbD 0 ^^ a.getLsbD 7) ∧
    (xtime a).getLsbD 2 = a.getLsbD 1 ∧ (xtime a).getLsbD 3 = (a.getLsbD 2 ^^ a.getLsbD 7) ∧
    (xtime a).getLsbD 4 = (a.getLsbD 3 ^^ a.getLsbD 7) ∧ (xtime a).getLsbD 5 = a.getLsbD 4 ∧
    (xtime a).getLsbD 6 = a.getLsbD 5 ∧ (xtime a).getLsbD 7 = a.getLsbD 6) ∧
  (∀ r : Byte, ∃ a, xtime a = r ∧ ∀ a', xtime a' = r → a' = a) ∧
  xtime 0x00 = 0x00 ∧ xtime 0x80 = 0x1b ∧ xtime 0xff = 0xe5 ∧ xtime 0x7f = 0xfe ∧ xtime 0x8d = 0x01

/-- spec/40_gf_arithmetic.md R93: gmul is commutative, associative, distributes over xor, has no zero divisors, and
every non-zero byte has exactly one inverse. -/
def Obligations.GmulFieldLaws : Prop :=
  (∀ a b : Byte, gmul a b = gmul b a) ∧
  (∀ a b c : Byte, gmul a (gmul b c) = gmul (gmul a b) c) ∧
  (∀ a b c : Byte, gmul a (b ^^^ c) = gmul a b ^^^ gmul a c) ∧
  (∀ a b : Byte, gmul a b = 0 → a = 0 ∨ b = 0) ∧
  (∀ a : Byte, a ≠ 0 → ∃ b, gmul a b = 0x01 ∧ ∀ b', gmul a b' = 0x01 → b' = b)

/-- spec/40_gf_arithmetic.md R92, R94: the products by the constants of the two matrices, in terms of xtime. -/
def Obligations.GmulByTheMatrixConstants : Prop :=
  ∀ a : Byte,
    gmul 0x01 a = a ∧ gmul 0x02 a = xtime a ∧ gmul 0x03 a = xtime a ^^^ a ∧
    gmul 0x09 a = xtime (xtime (xtime a)) ^^^ a ∧
    gmul 0x0b a = xtime (xtime (xtime a)) ^^^ xtime a ^^^ a ∧
    gmul 0x0d a = xtime (xtime (xtime a)) ^^^ xtime (xtime a) ^^^ a ∧
    gmul 0x0e a = xtime (xtime (xtime a)) ^^^ xtime (xtime a) ^^^ xtime a

/-- spec/40_gf_arithmetic.md R95: Rcon by repeated xtime for every n ≥ 1, and the table of the range used. -/
def Obligations.RconPowersOfX : Prop :=
  rcon 1 = ⟨0x01, 0, 0, 0⟩ ∧ (∀ n, 1 ≤ n → rcon (n + 1) = ⟨xtime (rcon n).b0, 0, 0, 0⟩) ∧
  (List.range 10).map (fun k => (rcon (k + 1)).b0) = [0x01, 0x02, 0x04, 0x08, 0x10, 0x20, 0x40, 0x80, 0x1b, 0x36]

/-- spec/41_sbox_rom.md R106: the table of R101 agrees with its generating definition at every byte. -/
def Obligations.SboxMeetsItsDefinition : Prop :=
  ∀ a : Byte, ∃ b : Byte, ((a = 0 ∧ b = 0) ∨ (a ≠ 0 ∧ gmul a b = 0x01)) ∧
    sBox a = b ^^^ b.rotateLeft 1 ^^^ b.rotateLeft 2 ^^^ b.rotateLeft 3 ^^^ b.rotateLeft 4 ^^^ 0x63

/-- spec/41_sbox_rom.md R102, R104: the two ROMs are inverse permutations; SBox has no fixed and no opposite fixed
point; the corner cases. -/
def Obligations.SboxRomsAreInverse : Prop :=
  (∀ a : Byte, invSBox (sBox a) = a ∧ sBox (invSBox a) = a ∧ sBox a ≠ a ∧ sBox a ≠ a ^^^ 0xff ∧
    (sBox a = 0x00 ↔ a = 0x52)) ∧
  sBox 0x00 = 0x63 ∧ sBox 0xff = 0x16 ∧ sBox 0x53 = 0xed ∧
  invSBox 0x00 = 0x52 ∧ invSBox 0x63 = 0x00 ∧ invSBox 0xff = 0x7d ∧ invSBox 0xed = 0x53

/-! ## The key expander -/

/-- spec/42_key_expander.md R111: exactly 128, 192 and 256 are accepted. -/
def Obligations.DeriveConfigAcceptsThreeLengths : Prop :=
  ∀ (n : Nat) (p : Nat × Nat), deriveConfig n = some p ↔
    (n = 128 ∧ p = (4, 10)) ∨ (n = 192 ∧ p = (6, 12)) ∨ (n = 256 ∧ p = (8, 14))

/-- spec/42_key_expander.md R112, the CFG command: its words, its effect for every immediate, and that it touches
CFG, STATUS and OLEN only. -/
def Obligations.CfgCommandRule : Prop :=
  (∀ bits, bits < 65536 → decode (BitVec.ofNat 32 (0x10000000 + bits)) = .ok (.cfg bits)) ∧
  (∀ s, exec (.cfg 128) s = .next { s with cfg := 0x80A40080, status := 0, olen := 0 }) ∧
  (∀ s, exec (.cfg 192) s = .next { s with cfg := 0x80C600C0, status := 0, olen := 0 }) ∧
  (∀ s, exec (.cfg 256) s = .next { s with cfg := 0x80E80100, status := 0, olen := 0 }) ∧
  (∀ bits s, bits ≠ 128 → bits ≠ 192 → bits ≠ 256 →
    exec (.cfg bits) s = .next { s with cfg := 0, status := 1, olen := 0 })

/-- spec/42_key_expander.md R114, R115, R117: RotWord, SubWord and the three cases of T, byte by byte. -/
def Obligations.WordFunctionsOfTheExpander : Prop :=
  (∀ b0 b1 b2 b3 : Byte, rotWord ⟨b0, b1, b2, b3⟩ = ⟨b1, b2, b3, b0⟩) ∧
  (∀ w : Word, rotWord (rotWord (rotWord (rotWord w))) = w) ∧
  (∀ b0 b1 b2 b3 : Byte, subWord ⟨b0, b1, b2, b3⟩ = ⟨sBox b0, sBox b1, sBox b2, sBox b3⟩) ∧
  (∀ (i nk : Nat) (b0 b1 b2 b3 : Byte), i % nk = 0 →
    tWord i ⟨b0, b1, b2, b3⟩ nk = ⟨sBox b1 ^^^ (rcon (i / nk)).b0, sBox b2, sBox b3, sBox b0⟩) ∧
  (∀ (i nk : Nat) (w : Word), nk > 6 → i % nk = 4 → tWord i w nk = subWord w) ∧
  (∀ (i nk : Nat) (w : Word), i % nk ≠ 0 → (nk ≤ 6 ∨ i % nk ≠ 4) → tWord i w nk = w)

/-- spec/42_key_expander.md R118: for each of the three sizes the schedule is 16·(Nr+1) bytes, opens with the key,
and every later word is w[i-Nk] ^ T(i, w[i-1]). -/
def Obligations.ExpandFollowsTheRecurrence : Prop :=
  ∀ (key : List Byte) (nk nr : Nat), (nk, nr) ∈ [(4, 10), (6, 12), (8, 14)] → key.length = 4 * nk →
    (expand key nk nr).length = 16 * (nr + 1) ∧
    (expand key nk nr).take (4 * nk) = key ∧
    ∀ i, nk ≤ i → i < 4 * (nr + 1) →
      wordOf (expand key nk nr) i =
        xorWord (wordOf (expand key nk nr) (i - nk)) (tWord i (wordOf (expand key nk nr) (i - 1)) nk)

/-- spec/42_key_expander.md R119, the KEXP command: its word, its error, its result and its frame. -/
def Obligations.KexpCommandRule : Prop :=
  decode 0x20000000 = .ok .kexp ∧
  (∀ s, cfgValid s = false → exec .kexp s = .next { s with status := 1, olen := 0 }) ∧
  (∀ s, Configured s → ∃ t, exec .kexp s = .next t ∧ ScheduleWritten s t ∧ t.status = 0 ∧
    t.olen.toNat = 16 * (cfgNr s + 1) ∧ t.cfg = s.cfg ∧ t.obuf = s.obuf ∧ t.st = s.st ∧ t.chain = s.chain ∧
    OperandsKept s t)

/-- spec/42_key_expander.md R119: KEXP twice with the same KEY and CFG leaves byte-identical RK. -/
def Obligations.KexpIsDeterministic : Prop :=
  ∀ s t, Configured s → exec .kexp s = .next t → ∃ u, exec .kexp t = .next u ∧ u.rk = t.rk

/-! ## The round engine -/

/-- spec/43_round_engine.md R131, R132: the column-major maps between a block and the state, inverse to each other. -/
def Obligations.LoadAndStoreAreColumnMajor : Prop :=
  (∀ (b : Block) (r c : Fin 4), cell (loadState b) r c = b[r.val + 4 * c.val]) ∧
  (∀ (S : StateMatrix) (r c : Fin 4), (storeState S)[r.val + 4 * c.val] = cell S r c) ∧
  (∀ b : Block, storeState (loadState b) = b) ∧ (∀ S : StateMatrix, loadState (storeState S) = S)

/-- spec/43_round_engine.md R133, R134: SubBytes and InvSubBytes on the linear block, inverse to each other. -/
def Obligations.SubBytesActsOnEachByte : Prop :=
  (∀ (S : StateMatrix) (k : Nat) (h : k < 16),
    (storeState (subBytes S))[k] = sBox (storeState S)[k] ∧
    (storeState (invSubBytes S))[k] = invSBox (storeState S)[k]) ∧
  (∀ S : StateMatrix, invSubBytes (subBytes S) = S ∧ subBytes (invSubBytes S) = S)

/-- spec/43_round_engine.md R135, R136: ShiftRows and InvShiftRows as permutations of the linear block, inverse to
each other; ShiftRows four times is the identity. -/
def Obligations.ShiftRowsPermutesTheBlock : Prop :=
  (∀ b : Block, storeState (shiftRows (loadState b)) =
    #v[b[0], b[5], b[10], b[15], b[4], b[9], b[14], b[3], b[8], b[13], b[2], b[7], b[12], b[1], b[6], b[11]]) ∧
  (∀ b : Block, storeState (invShiftRows (loadState b)) =
    #v[b[0], b[13], b[10], b[7], b[4], b[1], b[14], b[11], b[8], b[5], b[2], b[15], b[12], b[9], b[6], b[3]]) ∧
  (∀ S : StateMatrix, invShiftRows (shiftRows S) = S ∧ shiftRows (invShiftRows S) = S ∧
    shiftRows (shiftRows (shiftRows (shiftRows S))) = S)

/-- spec/43_round_engine.md R137, R138: the two layers as products by the circulant matrices with first rows
(02, 03, 01, 01) and (0e, 0b, 0d, 09), inverse to each other. -/
def Obligations.MixColumnsAreInverseCirculants : Prop :=
  (∀ (S : StateMatrix) (i c : Fin 4),
    let row : Vector Byte 4 := #v[0x02, 0x03, 0x01, 0x01]
    cell (mixColumns S) i c =
      gmul row[(0 - i : Fin 4)] (cell S 0 c) ^^^ gmul row[(1 - i : Fin 4)] (cell S 1 c) ^^^ gmul row[(2 - i : Fin 4)] (cell S 2 c) ^^^
        gmul row[(3 - i : Fin 4)] (cell S 3 c)) ∧
  (∀ (S : StateMatrix) (i c : Fin 4),
    let row : Vector Byte 4 := #v[0x0e, 0x0b, 0x0d, 0x09]
    cell (invMixColumns S) i c =
      gmul row[(0 - i : Fin 4)] (cell S 0 c) ^^^ gmul row[(1 - i : Fin 4)] (cell S 1 c) ^^^ gmul row[(2 - i : Fin 4)] (cell S 2 c) ^^^
        gmul row[(3 - i : Fin 4)] (cell S 3 c)) ∧
  (∀ S : StateMatrix, invMixColumns (mixColumns S) = S ∧ mixColumns (invMixColumns S) = S)

/-- spec/43_round_engine.md R139: AddRoundKey on the linear block, and that it undoes itself. -/
def Obligations.AddRoundKeyIsLinearAndSelfInverse : Prop :=
  (∀ (S : StateMatrix) (rk : List Byte) (round k : Nat) (h : k < 16) (h' : 16 * round + k < rk.length),
    (storeState (addRoundKey S rk round))[k] = (storeState S)[k] ^^^ rk[16 * round + k]) ∧
  (∀ (S : StateMatrix) (rk : List Byte) (round : Nat), addRoundKey (addRoundKey S rk round) rk round = S)

/-- spec/43_round_engine.md R146: for every in, rk and Nr, InvCipher and Cipher undo each other. -/
def Obligations.InvCipherInvertsCipher : Prop :=
  ∀ (x : Block) (rk : List Byte) (nr : Nat),
    invCipher (cipher x rk nr) rk nr = x ∧ cipher (invCipher x rk nr) rk nr = x

/-- spec/95_test_vectors.md V1, the one numeric vector of the source, and its way back. -/
def Obligations.SourceVector : Prop :=
  encryptBlock (Vector.replicate 16 0) (List.replicate 16 0) 4 10 =
    #v[0x66, 0xe9, 0x4b, 0xd4, 0xef, 0x8a, 0x2c, 0x3b, 0x88, 0x4c, 0xfa, 0x59, 0xca, 0x34, 0x2b, 0x2e] ∧
  decryptBlock #v[0x66, 0xe9, 0x4b, 0xd4, 0xef, 0x8a, 0x2c, 0x3b, 0x88, 0x4c, 0xfa, 0x59, 0xca, 0x34, 0x2b, 0x2e]
    (List.replicate 16 0) 4 10 = Vector.replicate 16 0

/-- spec/43_round_engine.md R150, the ENCB command: its word, its error, its result and its frame. -/
def Obligations.EncbCommandRule : Prop := decode 0x30000000 = .ok .encb ∧ BlockRule .encb encryptBlock

/-- spec/43_round_engine.md R151, the DECB command: its word, its error, its result and its frame. -/
def Obligations.DecbCommandRule : Prop := decode 0x32000000 = .ok .decb ∧ BlockRule .decb decryptBlock

/-- spec/43_round_engine.md R151: DECB of the block an ENCB wrote, under the same KEY and CFG, returns that ENCB's
input. -/
def Obligations.DecbUndoesEncb : Prop :=
  ∀ s t s', Configured s → exec .encb s = .next t → s'.cfg = t.cfg → s'.key = t.key →
    (∀ a, a < 16 → ibufByte s' a = obufByte t a) →
    ∃ u, exec .decb s' = .next u ∧ u.status = 0 ∧ ∀ a, a < 16 → obufByte u a = ibufByte s a

/-! ## The modes -/

/-- spec/44_modes.md R161: the laws of XorBlock. -/
def Obligations.XorBlockLaws : Prop :=
  (∀ (a b : Block) (k : Nat) (h : k < 16), (xorBlock a b)[k] = a[k] ^^^ b[k]) ∧
  (∀ a : Block, xorBlock a a = Vector.replicate 16 0 ∧ xorBlock a (Vector.replicate 16 0) = a) ∧
  (∀ a b : Block, xorBlock (xorBlock a b) b = a)

/-- spec/44_modes.md R165: each mode gives as many blocks as it takes, and the closed forms: with p the entry before x
in iv :: in (decryption) or iv :: out (encryption), each output block as the rule gives it. -/
def Obligations.ModesHaveTheirClosedForms : Prop :=
  (∀ (rk : List Byte) (nr : Nat) (iv : Block) (xs : List Block),
    (ecbEnc rk nr xs).length = xs.length ∧ (ecbDec rk nr xs).length = xs.length ∧
    (cbcEnc rk nr iv xs).length = xs.length ∧ (cbcDec rk nr iv xs).length = xs.length ∧
    (cfbEnc rk nr iv xs).length = xs.length ∧ (cfbDec rk nr iv xs).length = xs.length) ∧
  ∀ (rk : List Byte) (nr : Nat) (iv : Block) (xs : List Block) (b : Nat) (x p : Block), xs[b]? = some x →
    ((ecbEnc rk nr xs)[b]? = some (cipher x rk nr) ∧ (ecbDec rk nr xs)[b]? = some (invCipher x rk nr)) ∧
    ((iv :: cbcEnc rk nr iv xs)[b]? = some p →
      (cbcEnc rk nr iv xs)[b]? = some (cipher (xorBlock x p) rk nr)) ∧
    ((iv :: xs)[b]? = some p → (cbcDec rk nr iv xs)[b]? = some (xorBlock (invCipher x rk nr) p)) ∧
    ((iv :: cfbEnc rk nr iv xs)[b]? = some p →
      (cfbEnc rk nr iv xs)[b]? = some (xorBlock x (cipher p rk nr))) ∧
    ((iv :: xs)[b]? = some p → (cfbDec rk nr iv xs)[b]? = some (xorBlock x (cipher p rk nr)))

/-- spec/44_modes.md R172: decryption undoes encryption in each mode, for every schedule, IV and message. -/
def Obligations.ModesRoundTrip : Prop :=
  ∀ (rk : List Byte) (nr : Nat) (iv : Block) (xs : List Block),
    ecbDec rk nr (ecbEnc rk nr xs) = xs ∧ cbcDec rk nr iv (cbcEnc rk nr iv xs) = xs ∧
    cfbDec rk nr iv (cfbEnc rk nr iv xs) = xs

/-- spec/44_modes.md R173: out[b] depends on iv and in[0..b] alone, so a change of in[i] changes no earlier block;
in CBC and CFB decryption a change of iv changes no block but out[0]. -/
def Obligations.OutputBlocksDependOnlyOnEarlierInput : Prop :=
  (∀ (rk : List Byte) (nr : Nat) (iv : Block) (xs : List Block) (n : Nat),
    (cbcEnc rk nr iv xs).take n = cbcEnc rk nr iv (xs.take n) ∧
    (cfbEnc rk nr iv xs).take n = cfbEnc rk nr iv (xs.take n) ∧
    (cbcDec rk nr iv xs).take n = cbcDec rk nr iv (xs.take n) ∧
    (cfbDec rk nr iv xs).take n = cfbDec rk nr iv (xs.take n)) ∧
  (∀ (rk : List Byte) (nr : Nat) (iv iv' : Block) (xs : List Block),
    (cbcDec rk nr iv xs).tail = (cbcDec rk nr iv' xs).tail ∧
    (cfbDec rk nr iv xs).tail = (cfbDec rk nr iv' xs).tail)

/-- spec/44_modes.md R174: a message is continued by the last output block (encryption) or the last input block
(decryption) as the IV of the second part. -/
def Obligations.MessagesContinueFromTheLastBlock : Prop :=
  ∀ (rk : List Byte) (nr : Nat) (iv : Block) (xs ys : List Block),
    cbcEnc rk nr iv (xs ++ ys) = cbcEnc rk nr iv xs ++ cbcEnc rk nr ((cbcEnc rk nr iv xs).getLastD iv) ys ∧
    cfbEnc rk nr iv (xs ++ ys) = cfbEnc rk nr iv xs ++ cfbEnc rk nr ((cfbEnc rk nr iv xs).getLastD iv) ys ∧
    cbcDec rk nr iv (xs ++ ys) = cbcDec rk nr iv xs ++ cbcDec rk nr (xs.getLastD iv) ys ∧
    cfbDec rk nr iv (xs ++ ys) = cfbDec rk nr iv xs ++ cfbDec rk nr (xs.getLastD iv) ys

/-- spec/44_modes.md R166, the ENC.ECB command: its words, its errors, its result and its frame. -/
def Obligations.EncEcbCommandRule : Prop :=
  decode 0x40000000 = .ok (.encEcb false) ∧ decode 0x41000000 = .ok (.encEcb true) ∧
  MessageRule .encEcb false fun s => ecbEnc (keySchedule s) (cfgNr s) (inBlocks s)

/-- spec/44_modes.md R167, the ENC.CBC command: its words, its errors, its result and its frame. -/
def Obligations.EncCbcCommandRule : Prop :=
  decode 0x44000000 = .ok (.encCbc false) ∧ decode 0x45000000 = .ok (.encCbc true) ∧
  MessageRule .encCbc true fun s => cbcEnc (keySchedule s) (cfgNr s) s.iv (inBlocks s)

/-- spec/44_modes.md R168, the ENC.CFB command: its words, its errors, its result and its frame. -/
def Obligations.EncCfbCommandRule : Prop :=
  decode 0x48000000 = .ok (.encCfb false) ∧ decode 0x49000000 = .ok (.encCfb true) ∧
  MessageRule .encCfb true fun s => cfbEnc (keySchedule s) (cfgNr s) s.iv (inBlocks s)

/-- spec/44_modes.md R169, the DEC.ECB command: its words, its errors, its result and its frame. -/
def Obligations.DecEcbCommandRule : Prop :=
  decode 0x42000000 = .ok (.decEcb false) ∧ decode 0x43000000 = .ok (.decEcb true) ∧
  MessageRule .decEcb false fun s => ecbDec (keySchedule s) (cfgNr s) (inBlocks s)

/-- spec/44_modes.md R170, the DEC.CBC command: its words, its errors, its result and its frame. -/
def Obligations.DecCbcCommandRule : Prop :=
  decode 0x46000000 = .ok (.decCbc false) ∧ decode 0x47000000 = .ok (.decCbc true) ∧
  MessageRule .decCbc true fun s => cbcDec (keySchedule s) (cfgNr s) s.iv (inBlocks s)

/-- spec/44_modes.md R171, the DEC.CFB command: its words, its errors, its result (by Cipher, not InvCipher) and its
frame. -/
def Obligations.DecCfbCommandRule : Prop :=
  decode 0x4A000000 = .ok (.decCfb false) ∧ decode 0x4B000000 = .ok (.decCfb true) ∧
  MessageRule .decCfb true fun s => cfbDec (keySchedule s) (cfgNr s) s.iv (inBlocks s)

/-- spec/44_modes.md R166, R169: ECB commands ignore the IVP bit. With LEN within BUF_BYTES they complete with either
value and agree in all but ST and the counters, which the spec leaves unspecified. -/
def Obligations.EcbIgnoresTheIvpBit : Prop :=
  ∀ s, s.len.toNat ≤ s.bufBytes → (∃ t t', exec (.encEcb true) s = .next t ∧ exec (.encEcb false) s = .next t' ∧
      t' = { t with st := t'.st, counters := t'.counters }) ∧
    (∃ t t', exec (.decEcb true) s = .next t ∧ exec (.decEcb false) s = .next t' ∧
      t' = { t with st := t'.st, counters := t'.counters })

/-- spec/44_modes.md R172 on the hardware: when the host copies OBUF[0..LEN-1] into IBUF and leaves CFG, KEY, IV and
LEN as they are, on a core of the same BUF_BYTES, the DEC command of the mode gives back the message its ENC command was given. -/
def Obligations.MessagesRoundTripOnTheHardware : Prop :=
  ∀ p ∈ [((Instr.encEcb false), (Instr.decEcb false)), ((Instr.encEcb true), (Instr.decEcb true)),
      ((Instr.encCbc true), (Instr.decCbc true)), ((Instr.encCfb true), (Instr.decCfb true))],
    ∀ s t s', Configured s → s.len.toNat % 16 = 0 → exec p.1 s = .next t →
      s'.bufBytes = t.bufBytes → s'.cfg = t.cfg → s'.key = t.key → s'.iv = t.iv → s'.len = t.len →
      (∀ a, a < s.len.toNat → ibufByte s' a = obufByte t a) →
      ∃ u, exec p.2 s' = .next u ∧ u.status = 0 ∧ u.olen = s.len ∧
        ∀ a, a < s.len.toNat → obufByte u a = ibufByte s a

/-! ## Errors -/

/-- spec/60_exceptions.md R184: the length validation and its examples. -/
def Obligations.LengthOkIsDivisibility : Prop :=
  (∀ n, lengthOk n = true ↔ 16 ∣ n) ∧ lengthOk 0 = true ∧ lengthOk 16 = true ∧ lengthOk 15 = false ∧
  lengthOk 17 = false ∧ lengthOk (2 ^ 32 - 16) = true ∧ lengthOk (2 ^ 32 - 1) = false

/-- spec/60_exceptions.md R181: the two causes of InvalidKeyLength and what each writes; that a missing configuration
is reported also where LEN exceeds BUF_BYTES is the model's reading (log entry 19). -/
def Obligations.InvalidKeyLengthHasTwoCauses : Prop :=
  (∀ bits s, bits ≠ 128 → bits ≠ 192 → bits ≠ 256 →
    exec (.cfg bits) s = .next { s with cfg := 0, status := 1, olen := 0 }) ∧
  (∀ i s, needsConfig i = true → cfgValid s = false → exec i s = .next { s with status := 1, olen := 0 }) ∧
  cfgValid State.reset = false

/-- spec/60_exceptions.md R181 to R183, R185, R188: every word issued, a message command with LEN within BUF_BYTES,
completes, and STATUS is the code of the first error that applies, in the fixed order, or 0. LEN beyond BUF_BYTES:
`MessagesBeyondTheBuffer`. -/
def Obligations.ErrorsAreReportedInOrder : Prop :=
  (∀ w s, (∃ e, decode w = .error e) → ∃ t, hostCommand w s = .next t ∧ t.status = 4) ∧
  (∀ w i s, decode w = .ok i → hostCommand w s = exec i s) ∧
  (∀ bits s, ∃ t, exec (.cfg bits) s = .next t ∧
    t.status = if bits = 128 ∨ bits = 192 ∨ bits = 256 then 0 else 1) ∧
  (∀ i s, needsConfig i = true → FitsBuffer i s → ∃ t, exec i s = .next t ∧
    t.status =
      if cfgValid s = false then 1
      else if isMessage i = true ∧ s.len.toNat % 16 ≠ 0 then 2
      else if requiresIV i = true ∧ givesIV i = false then 3
      else 0)

/-- spec/20_memory.md R53: a message command with LEN beyond BUF_BYTES is refused. That its errors are reported first,
in their order, is the model's reading (log entry 19). -/
def Obligations.MessagesBeyondTheBuffer : Prop :=
  ∀ i s, isMessage i = true → s.bufBytes < s.len.toNat →
    exec i s =
      if cfgValid s = false then .next { s with status := 1, olen := 0 }
      else if s.len.toNat % 16 ≠ 0 then .next { s with status := 2, olen := 0 }
      else if requiresIV i = true ∧ givesIV i = false then .next { s with status := 3, olen := 0 }
      else .refused .beyondBuffer

/-- spec/60_exceptions.md R186: a command that ends in an error writes STATUS and OLEN = 0 and nothing else, but
that a failing CFG clears CFG. -/
def Obligations.FailingCommandsWriteOnlyStatusAndOlen : Prop :=
  ∀ i s t, exec i s = .next t → t.status ≠ 0 →
    t = if needsConfig i then { s with status := t.status, olen := 0 }
        else { s with cfg := 0, status := t.status, olen := 0 }

/-! ## The whole machine -/

/-- spec/10_state.md R21, R22, R26 and spec/20_memory.md R51: every command, a message command with LEN within
BUF_BYTES, completes, and none writes KEY, IV, LEN or IBUF. -/
def Obligations.CommandsNeverWriteTheirOperands : Prop :=
  (∀ i s, FitsBuffer i s → ∃ t, exec i s = .next t ∧ OperandsKept s t) ∧
  (∀ i s t, exec i s = .next t → OperandsKept s t)

/-- spec/10_state.md R23, spec/70_reset_and_hazards.md R206: no command but CFG writes CFG. -/
def Obligations.OnlyCfgWritesTheConfiguration : Prop :=
  ∀ i s t, needsConfig i = true → exec i s = .next t → t.cfg = s.cfg

/-- spec/10_state.md R29, R30, R35: CHAIN is written by the CBC and CFB commands alone, ST by the commands that
transform blocks alone, RK by the commands that expand the key alone. -/
def Obligations.HiddenRegistersHaveTheirWriters : Prop :=
  (∀ i s t, requiresIV i = false → exec i s = .next t → t.chain = s.chain) ∧
  (∀ s t, exec .kexp s = .next t → t.st = s.st) ∧
  (∀ bits s t, exec (.cfg bits) s = .next t → t.st = s.st ∧ t.rk = s.rk ∧ t.counters = s.counters)

/-- spec/10_state.md R34, R35: what a command leaves in CFG, STATUS, OLEN, RK[0..16(Nr+1)-1] and the bytes of OBUF it
writes depends only on CFG, LEN, KEY[0..4Nk-1], the IV where the mode requires one, and the bytes of IBUF it reads;
so not on STATUS, OLEN, RK, ST, CHAIN or OBUF. Both states are of one core, and LEN is within BUF_BYTES where the
command reads it. -/
def Obligations.CommandsDependOnlyOnWhatTheyRead : Prop :=
  ∀ i s s', FitsBuffer i s → s'.bufBytes = s.bufBytes → CfgLegal s.cfg → s'.cfg = s.cfg → s'.len = s.len → keyOperand s' = keyOperand s →
    (requiresIV i = true → s'.iv = s.iv) → (∀ a, a < dataLength i s → ibufByte s' a = ibufByte s a) →
    ∃ t t', exec i s = .next t ∧ exec i s' = .next t' ∧
      t'.cfg = t.cfg ∧ t'.status = t.status ∧ t'.olen = t.olen ∧
      (t.status = 0 → needsConfig i = true →
        firstBytes t'.rk (16 * (cfgNr s + 1)) = firstBytes t.rk (16 * (cfgNr s + 1))) ∧
      (t.status = 0 → ∀ a, a < dataLength i s → obufByte t' a = obufByte t a)

/-- spec/00_scope.md R9: BUF_BYTES is a parameter of the core: no step changes it. That it stands in the state is the
model's form of the parameter (log entry 6), and the steps that are no command are the model's (log entries 7, 8, 10). -/
def Obligations.BufBytesIsFixed : Prop := ∀ s t, step s = .next t → t.bufBytes = s.bufBytes

/-- spec/00_scope.md R9, "no rule depends on its value except" spec/20_memory.md R53: on two cores that differ in
BUF_BYTES alone, with LEN within both where the command reads it, every command completes and leaves the same, but for
ST, CHAIN and the counters, of which the spec fixes nothing. -/
def Obligations.BufBytesMattersOnlyForTheCapacity : Prop :=
  ∀ i s m, FitsBuffer i s → FitsBuffer i { s with bufBytes := m } →
    ∃ t t', exec i s = .next t ∧ exec i { s with bufBytes := m } = .next t' ∧
      t' = { t with bufBytes := m, st := t'.st, chain := t'.chain, counters := t'.counters }

/-- spec/10_state.md R24: CFG is legal after reset, from a legal CFG every step leaves a legal CFG, and a legal CFG is
0 or has VALID = 1, KLB in {128, 192, 256}, NK = KLB/32 and NR = NK + 6. -/
def Obligations.ConfigurationStaysLegal : Prop :=
  (∀ n, CfgLegal (State.resetWith n).cfg) ∧ CfgLegal State.reset.cfg ∧
  (∀ s t, CfgLegal s.cfg → step s = .next t → CfgLegal t.cfg) ∧
  (∀ s, CfgLegal s.cfg → s.cfg = 0 ∨
    (cfgValid s = true ∧ cfgKlb s ∈ [128, 192, 256] ∧ cfgNk s = cfgKlb s / 32 ∧ cfgNr s = cfgNk s + 6))

/-- spec/20_memory.md R56 and spec/30_encoding.md R76: a step on a command word runs the command it decodes to, and
on an illegal word raises IllegalCommand; around it the step only takes the word off the host's queue. -/
def Obligations.StepRunsTheDecodedCommand : Prop :=
  (∀ s w i rest, s.inputs = .transaction (.command w) :: rest → decode w = .ok i →
    step s = exec i { s with inputs := rest }) ∧
  (∀ s w e rest, s.inputs = .transaction (.command w) :: rest → decode w = .error e →
    step s = .next { s with inputs := rest, status := 4, olen := 0 })

/-- The model's choice of where a command word is placed (log entry 1): the next step runs exactly it. -/
def Obligations.PlacedWordRunsNext : Prop :=
  ∀ (s : State) (w : Nat) (i : Instr), decode (BitVec.ofNat 32 w) = .ok i → w < 2 ^ 32 →
    step (s.withFetchWord 32 w) = exec i s

/-- spec/20_memory.md R56, the table of host transactions, row by row, and that there is no other: a transaction
outside it is refused. The value of a read stands in the model's own field `answer` (log entry 8). -/
def Obligations.HostTransactionsOfTheTable : Prop :=
  (∀ s k v (h : k < 32), transact (.writeByte .key k v) s = .next { s with key := s.key.set k v h }) ∧
  (∀ s k v (h : k < 16), transact (.writeByte .iv k v) s = .next { s with iv := s.iv.set k v h }) ∧
  (∀ s a v, a < s.bufBytes → ∃ m, transact (.writeByte .ibuf a v) s = .next { s with ibuf := m } ∧
    ∀ x, ibufByte { s with ibuf := m } x = if x = a then v else ibufByte s x) ∧
  (∀ s n, transact (.writeReg .len n) s = .next { s with len := n }) ∧
  (∀ s k (h : k < 32), transact (.readByte .key k) s = .next { s with answer := some (.byte s.key[k]) }) ∧
  (∀ s k (h : k < 16), transact (.readByte .iv k) s = .next { s with answer := some (.byte s.iv[k]) }) ∧
  (∀ s k (h : k < 240), transact (.readByte .rk k) s = .next { s with answer := some (.byte s.rk[k]) }) ∧
  (∀ s a, a < s.bufBytes →
    transact (.readByte .ibuf a) s = .next { s with answer := some (.byte (ibufByte s a)) } ∧
    transact (.readByte .obuf a) s = .next { s with answer := some (.byte (obufByte s a)) }) ∧
  (∀ s, transact (.readReg .cfg) s = .next { s with answer := some (.reg s.cfg) } ∧
    transact (.readReg .status) s = .next { s with answer := some (.reg s.status) } ∧
    transact (.readReg .len) s = .next { s with answer := some (.reg s.len) } ∧
    transact (.readReg .olen) s = .next { s with answer := some (.reg s.olen) }) ∧
  (∀ s w i, decode w = .ok i → transact (.command w) s = exec i s) ∧
  (∀ t s, t.inTable s.bufBytes = false → transact t s = .refused .noSuchTransaction)

/-- spec/60_exceptions.md R180, R191, spec/20_memory.md R56: no transaction of the table and no word issued stops the
core, a message command with LEN within BUF_BYTES (spec/20_memory.md R53), so the step goes on. That the step also goes
on where the next input is a reset, or there is none, is the model's choice (log entries 7 and 10). -/
def Obligations.EveryStepOfTheTableGoesOn : Prop :=
  ∀ s : State, (∀ t rest, s.inputs = .transaction t :: rest → t.inTable s.bufBytes = true) →
    (∀ w i rest, s.inputs = .transaction (.command w) :: rest → decode w = .ok i → FitsBuffer i s) → StepSafe s

/-- The invariant of the machine is kept by every step (spec/10_state.md R24, R25, R27, spec/00_scope.md R9). The
canonical form of the data spaces is the model's (log entry 3), and so are the steps that are no command: a reset as an
input, an idle step, the read that leaves its value in `answer` (log entries 7, 8 and 10). -/
def Obligations.InvariantIsKeptByEveryStep : Prop := ∀ s t, MachineInv s → step s = .next t → MachineInv t

/-- The invariant holds after reset, on a core of any legal BUF_BYTES (the canonical form is the model's, log entry 3). -/
def Obligations.InvariantHoldsAtReset : Prop :=
  (∀ n, Config.BufBytesLegal n → MachineInv (State.resetWith n)) ∧ MachineInv State.reset

/-- spec/10_state.md R38: the values the spec gives for reset, on a core of any BUF_BYTES; the core is idle, and an idle
step leaves it so (the model's choice, log entry 10). `State.reset` is the reset of the core whose BUF_BYTES is the
largest (the model's choice, log entry 6). -/
def Obligations.ResetValues : Prop :=
  (∀ n, (State.resetWith n).cfg = 0x00000000 ∧ cfgValid (State.resetWith n) = false ∧
    (State.resetWith n).status = 0x00000000 ∧ (State.resetWith n).len = 0x00000000 ∧
    (State.resetWith n).olen = 0x00000000 ∧ (State.resetWith n).bufBytes = n ∧
    step (State.resetWith n) = .next (State.resetWith n)) ∧
  State.reset = State.resetWith 4294967295 ∧
  State.reset.cfg = 0x00000000 ∧ cfgValid State.reset = false ∧ State.reset.status = 0x00000000 ∧
  State.reset.len = 0x00000000 ∧ State.reset.olen = 0x00000000 ∧ step State.reset = .next State.reset

/-- spec/70_reset_and_hazards.md R200: a reset, from every state, leaves the control registers 0 and the host's queue
behind it as it was; every command that needs a configuration then fails. That a reset is an input is the model's
choice (log entry 7). -/
def Obligations.ResetClearsTheControlRegisters : Prop :=
  ∀ s rest, s.inputs = .reset :: rest → ∃ t, step s = .next t ∧
    t.cfg = 0 ∧ t.status = 0 ∧ t.len = 0 ∧ t.olen = 0 ∧ t.inputs = rest ∧
    ∀ i, needsConfig i = true → exec i t = .next { t with status := 1, olen := 0 }
end

