-- ==== Sys2Proof/Laws/Memory.lean ====
section
/-! SUPPORT. The laws of the data spaces: a read after a write, everything else alone, and the canonical form kept
by every memory operation. -/

namespace Sys2Proof.Machine

@[simp] theorem Memory.find?_nil (a : Nat) : Memory.find? [] a = none := rfl

theorem Memory.find?_cons (b : Nat) (v : Byte) (m : Memory) (a : Nat) :
    Memory.find? ((b, v) :: m) a = if a = b then some v else Memory.find? m a := rfl

/-- Nothing is listed below the first address of a canonical memory. -/
theorem Memory.find?_below {m : Memory} {a : Nat} (h : ∀ c ∈ m, a < c.1) : Memory.find? m a = none := by
  induction m with
  | nil => rfl
  | cons c m ih =>
    obtain ⟨b, v⟩ := c
    have hb : a < b := h (b, v) (by simp)
    rw [Memory.find?_cons, if_neg (by omega)]
    exact ih fun c hc => h c (by simp [hc])

/-- A read of one byte after a write of one byte. -/
theorem Memory.find?_write (m : Memory) (a : Nat) (v : Byte) (x : Nat) :
    (m.write a v).find? x = if x = a then some v else m.find? x := by
  induction m with
  | nil => rfl
  | cons c m ih =>
    obtain ⟨b, u⟩ := c
    unfold Memory.write
    split
    · simp only [Memory.find?_cons]
    · split
      · rename_i h
        subst h
        simp only [Memory.find?_cons]
        split <;> rfl
      · simp only [Memory.find?_cons, ih]
        split
        · rw [if_neg (by omega)]
        · rfl

/-- The addresses listed after a write. -/
theorem Memory.mem_write {m : Memory} {a : Nat} {v : Byte} {c : Host.Cell} (h : c ∈ m.write a v) :
    c = (a, v) ∨ c ∈ m := by
  induction m with
  | nil => simpa [Memory.write] using h
  | cons d m ih =>
    obtain ⟨b, u⟩ := d
    unfold Memory.write at h
    split at h
    · simpa using h
    · split at h
      · rcases List.mem_cons.1 h with h | h
        · exact .inl h
        · exact .inr (by simp [h])
      · rcases List.mem_cons.1 h with h | h
        · exact .inr (by simp [h])
        · rcases ih h with h | h
          · exact .inl h
          · exact .inr (by simp [h])

/-- A write keeps the canonical form. -/
theorem Memory.write_wf {m : Memory} (hm : m.wf) (a : Nat) (v : Byte) : (m.write a v).wf := by
  induction m with
  | nil => simp [Memory.write, Memory.wf]
  | cons c m ih =>
    obtain ⟨b, u⟩ := c
    have hrest : ∀ c ∈ m, b < c.1 := by simpa using (List.pairwise_cons.1 hm).1
    have htail : Memory.wf m := (List.pairwise_cons.1 hm).2
    unfold Memory.write
    split
    · rename_i h
      refine List.pairwise_cons.2 ⟨?_, hm⟩
      simp only [List.map_cons, List.mem_cons, List.mem_map]
      rintro x (rfl | ⟨c, hc, rfl⟩)
      · exact h
      · exact Nat.lt_trans h (hrest c hc)
    · split
      · rename_i h
        subst h
        exact hm
      · refine List.pairwise_cons.2 ⟨?_, ih htail⟩
        simp only [List.mem_map]
        rintro x ⟨c, hc, rfl⟩
        rcases Memory.mem_write hc with rfl | hc
        · show b < a
          omega
        · exact hrest c hc

/-- A write of a byte sequence keeps the canonical form. -/
theorem Memory.writeSeq_wf {m : Memory} (hm : m.wf) (a : Nat) (vs : List Byte) : (m.writeSeq a vs).wf := by
  induction vs generalizing m a with
  | nil => exact hm
  | cons v vs ih => exact ih (Memory.write_wf hm a v) (a + 1)

/-- A read of one byte after a write of a byte sequence at a. -/
theorem Memory.find?_writeSeq (m : Memory) (a : Nat) (vs : List Byte) (x : Nat) :
    (m.writeSeq a vs).find? x = if a ≤ x ∧ x < a + vs.length then vs[x - a]? else m.find? x := by
  induction vs generalizing m a with
  | nil => simp [Memory.writeSeq]
  | cons v vs ih =>
    rw [Memory.writeSeq, ih, Memory.find?_write]
    by_cases hx : x = a
    · subst hx
      simp
    · by_cases hin : a + 1 ≤ x ∧ x < a + 1 + vs.length
      · rw [if_pos hin, if_pos (by simp; omega), show x - a = (x - (a + 1)) + 1 by omega]
        rfl
      · rw [if_neg hin, if_neg hx, if_neg (by simp; omega)]

/-- The addresses listed after a write of a byte sequence. -/
theorem Memory.mem_writeSeq {m : Memory} {a : Nat} {vs : List Byte} {c : Host.Cell} (h : c ∈ m.writeSeq a vs) :
    (a ≤ c.1 ∧ c.1 < a + vs.length) ∨ c ∈ m := by
  induction vs generalizing m a with
  | nil => exact .inr h
  | cons v vs ih =>
    rcases ih h with h | h
    · left; simp; omega
    · rcases Memory.mem_write h with rfl | h
      · left; simp
      · exact .inr h

/-- The canonical form is canonical: memories that hold the same bytes are the same list. -/
theorem Memory.ext_of_find? {m m' : Memory} (hm : m.wf) (hm' : m'.wf)
    (h : ∀ a, m.find? a = m'.find? a) : m = m' := by
  induction m generalizing m' with
  | nil =>
    cases m' with
    | nil => rfl
    | cons c m' => simpa [Memory.find?] using h c.1
  | cons c m ih =>
    obtain ⟨b, v⟩ := c
    have hb : ∀ c ∈ m, b < c.1 := by simpa using (List.pairwise_cons.1 hm).1
    cases m' with
    | nil => simpa [Memory.find?] using h b
    | cons c' m' =>
      obtain ⟨b', v'⟩ := c'
      have hb' : ∀ c ∈ m', b' < c.1 := by simpa using (List.pairwise_cons.1 hm').1
      have hbb : b = b' := by
        rcases Nat.lt_trichotomy b b' with hlt | heq | hgt
        · have := h b
          rw [Memory.find?_cons, if_pos rfl, Memory.find?_below] at this
          · cases this
          · rintro c hc
            rcases List.mem_cons.1 hc with rfl | hc
            · exact hlt
            · exact Nat.lt_trans hlt (hb' c hc)
        · exact heq
        · have := h b'
          rw [Memory.find?_cons b', if_pos rfl, Memory.find?_below] at this
          · cases this
          · rintro c hc
            rcases List.mem_cons.1 hc with rfl | hc
            · exact hgt
            · exact Nat.lt_trans hgt (hb c hc)
      subst hbb
      have hv : v = v' := by simpa [Memory.find?] using h b
      subst hv
      congr 1
      refine ih (List.pairwise_cons.1 hm).2 (List.pairwise_cons.1 hm').2 fun a => ?_
      by_cases hab : a = b
      · subst hab
        rw [Memory.find?_below hb, Memory.find?_below hb']
      · simpa [Memory.find?_cons, hab] using h a

theorem Memory.nil_wf : Memory.wf [] := List.Pairwise.nil

theorem resetWith_memories_wf (n : Nat) : (State.resetWith n).ibuf.wf ∧ (State.resetWith n).obuf.wf :=
  ⟨Memory.nil_wf, Memory.nil_wf⟩

theorem reset_memories_wf : State.reset.ibuf.wf ∧ State.reset.obuf.wf := resetWith_memories_wf _

end Sys2Proof.Machine
end

