-- ==== Sys2Proof/Laws/State.lean ====
section
/-! SUPPORT. One lemma per field per update of the state, so that no later proof unfolds a record update. -/

namespace Sys2Proof.Machine

variable (s : State)

@[simp] theorem setErr_key (code : BitVec 3) : (setErr code s).key = s.key := rfl
@[simp] theorem setErr_iv (code : BitVec 3) : (setErr code s).iv = s.iv := rfl
@[simp] theorem setErr_cfg (code : BitVec 3) : (setErr code s).cfg = s.cfg := rfl
@[simp] theorem setErr_status (code : BitVec 3) : (setErr code s).status = code.setWidth 32 := rfl
@[simp] theorem setErr_len (code : BitVec 3) : (setErr code s).len = s.len := rfl
@[simp] theorem setErr_olen (code : BitVec 3) : (setErr code s).olen = s.olen := rfl
@[simp] theorem setErr_rk (code : BitVec 3) : (setErr code s).rk = s.rk := rfl
@[simp] theorem setErr_st (code : BitVec 3) : (setErr code s).st = s.st := rfl
@[simp] theorem setErr_chain (code : BitVec 3) : (setErr code s).chain = s.chain := rfl
@[simp] theorem setErr_counters (code : BitVec 3) : (setErr code s).counters = s.counters := rfl
@[simp] theorem setErr_ibuf (code : BitVec 3) : (setErr code s).ibuf = s.ibuf := rfl
@[simp] theorem setErr_obuf (code : BitVec 3) : (setErr code s).obuf = s.obuf := rfl
@[simp] theorem setErr_bufBytes (code : BitVec 3) : (setErr code s).bufBytes = s.bufBytes := rfl
@[simp] theorem setErr_bufDraw (code : BitVec 3) : (setErr code s).bufDraw = s.bufDraw := rfl
@[simp] theorem setErr_draws (code : BitVec 3) : (setErr code s).draws = s.draws := rfl
@[simp] theorem setErr_inputs (code : BitVec 3) : (setErr code s).inputs = s.inputs := rfl
@[simp] theorem setErr_answer (code : BitVec 3) : (setErr code s).answer = s.answer := rfl

@[simp] theorem setOlen_key (n : Reg32) : (setOlen n s).key = s.key := rfl
@[simp] theorem setOlen_iv (n : Reg32) : (setOlen n s).iv = s.iv := rfl
@[simp] theorem setOlen_cfg (n : Reg32) : (setOlen n s).cfg = s.cfg := rfl
@[simp] theorem setOlen_status (n : Reg32) : (setOlen n s).status = s.status := rfl
@[simp] theorem setOlen_len (n : Reg32) : (setOlen n s).len = s.len := rfl
@[simp] theorem setOlen_olen (n : Reg32) : (setOlen n s).olen = n := rfl
@[simp] theorem setOlen_rk (n : Reg32) : (setOlen n s).rk = s.rk := rfl
@[simp] theorem setOlen_st (n : Reg32) : (setOlen n s).st = s.st := rfl
@[simp] theorem setOlen_chain (n : Reg32) : (setOlen n s).chain = s.chain := rfl
@[simp] theorem setOlen_counters (n : Reg32) : (setOlen n s).counters = s.counters := rfl
@[simp] theorem setOlen_ibuf (n : Reg32) : (setOlen n s).ibuf = s.ibuf := rfl
@[simp] theorem setOlen_obuf (n : Reg32) : (setOlen n s).obuf = s.obuf := rfl
@[simp] theorem setOlen_bufBytes (n : Reg32) : (setOlen n s).bufBytes = s.bufBytes := rfl
@[simp] theorem setOlen_bufDraw (n : Reg32) : (setOlen n s).bufDraw = s.bufDraw := rfl
@[simp] theorem setOlen_draws (n : Reg32) : (setOlen n s).draws = s.draws := rfl
@[simp] theorem setOlen_inputs (n : Reg32) : (setOlen n s).inputs = s.inputs := rfl
@[simp] theorem setOlen_answer (n : Reg32) : (setOlen n s).answer = s.answer := rfl

@[simp] theorem memWrite_key (a : Nat) (v : Block) : (memWrite a v s).key = s.key := rfl
@[simp] theorem memWrite_iv (a : Nat) (v : Block) : (memWrite a v s).iv = s.iv := rfl
@[simp] theorem memWrite_cfg (a : Nat) (v : Block) : (memWrite a v s).cfg = s.cfg := rfl
@[simp] theorem memWrite_status (a : Nat) (v : Block) : (memWrite a v s).status = s.status := rfl
@[simp] theorem memWrite_len (a : Nat) (v : Block) : (memWrite a v s).len = s.len := rfl
@[simp] theorem memWrite_olen (a : Nat) (v : Block) : (memWrite a v s).olen = s.olen := rfl
@[simp] theorem memWrite_rk (a : Nat) (v : Block) : (memWrite a v s).rk = s.rk := rfl
@[simp] theorem memWrite_st (a : Nat) (v : Block) : (memWrite a v s).st = s.st := rfl
@[simp] theorem memWrite_chain (a : Nat) (v : Block) : (memWrite a v s).chain = s.chain := rfl
@[simp] theorem memWrite_counters (a : Nat) (v : Block) : (memWrite a v s).counters = s.counters := rfl
@[simp] theorem memWrite_ibuf (a : Nat) (v : Block) : (memWrite a v s).ibuf = s.ibuf := rfl
@[simp] theorem memWrite_obuf (a : Nat) (v : Block) : (memWrite a v s).obuf = s.obuf.writeSeq a v.toList := rfl
@[simp] theorem memWrite_bufBytes (a : Nat) (v : Block) : (memWrite a v s).bufBytes = s.bufBytes := rfl
@[simp] theorem memWrite_bufDraw (a : Nat) (v : Block) : (memWrite a v s).bufDraw = s.bufDraw := rfl
@[simp] theorem memWrite_draws (a : Nat) (v : Block) : (memWrite a v s).draws = s.draws := rfl
@[simp] theorem memWrite_inputs (a : Nat) (v : Block) : (memWrite a v s).inputs = s.inputs := rfl
@[simp] theorem memWrite_answer (a : Nat) (v : Block) : (memWrite a v s).answer = s.answer := rfl

@[simp] theorem writeRk_key (bs : List Byte) : (writeRk bs s).key = s.key := rfl
@[simp] theorem writeRk_iv (bs : List Byte) : (writeRk bs s).iv = s.iv := rfl
@[simp] theorem writeRk_cfg (bs : List Byte) : (writeRk bs s).cfg = s.cfg := rfl
@[simp] theorem writeRk_status (bs : List Byte) : (writeRk bs s).status = s.status := rfl
@[simp] theorem writeRk_len (bs : List Byte) : (writeRk bs s).len = s.len := rfl
@[simp] theorem writeRk_olen (bs : List Byte) : (writeRk bs s).olen = s.olen := rfl
@[simp] theorem writeRk_rk (bs : List Byte) : (writeRk bs s).rk = overlay s.rk bs := rfl
@[simp] theorem writeRk_st (bs : List Byte) : (writeRk bs s).st = s.st := rfl
@[simp] theorem writeRk_chain (bs : List Byte) : (writeRk bs s).chain = s.chain := rfl
@[simp] theorem writeRk_counters (bs : List Byte) : (writeRk bs s).counters = s.counters := rfl
@[simp] theorem writeRk_ibuf (bs : List Byte) : (writeRk bs s).ibuf = s.ibuf := rfl
@[simp] theorem writeRk_obuf (bs : List Byte) : (writeRk bs s).obuf = s.obuf := rfl
@[simp] theorem writeRk_bufBytes (bs : List Byte) : (writeRk bs s).bufBytes = s.bufBytes := rfl
@[simp] theorem writeRk_bufDraw (bs : List Byte) : (writeRk bs s).bufDraw = s.bufDraw := rfl
@[simp] theorem writeRk_draws (bs : List Byte) : (writeRk bs s).draws = s.draws := rfl
@[simp] theorem writeRk_inputs (bs : List Byte) : (writeRk bs s).inputs = s.inputs := rfl
@[simp] theorem writeRk_answer (bs : List Byte) : (writeRk bs s).answer = s.answer := rfl

@[simp] theorem setChain_key (v : Block) : (setChain v s).key = s.key := rfl
@[simp] theorem setChain_iv (v : Block) : (setChain v s).iv = s.iv := rfl
@[simp] theorem setChain_cfg (v : Block) : (setChain v s).cfg = s.cfg := rfl
@[simp] theorem setChain_status (v : Block) : (setChain v s).status = s.status := rfl
@[simp] theorem setChain_len (v : Block) : (setChain v s).len = s.len := rfl
@[simp] theorem setChain_olen (v : Block) : (setChain v s).olen = s.olen := rfl
@[simp] theorem setChain_rk (v : Block) : (setChain v s).rk = s.rk := rfl
@[simp] theorem setChain_st (v : Block) : (setChain v s).st = s.st := rfl
@[simp] theorem setChain_chain (v : Block) : (setChain v s).chain = v := rfl
@[simp] theorem setChain_counters (v : Block) : (setChain v s).counters = s.counters := rfl
@[simp] theorem setChain_ibuf (v : Block) : (setChain v s).ibuf = s.ibuf := rfl
@[simp] theorem setChain_obuf (v : Block) : (setChain v s).obuf = s.obuf := rfl
@[simp] theorem setChain_bufBytes (v : Block) : (setChain v s).bufBytes = s.bufBytes := rfl
@[simp] theorem setChain_bufDraw (v : Block) : (setChain v s).bufDraw = s.bufDraw := rfl
@[simp] theorem setChain_draws (v : Block) : (setChain v s).draws = s.draws := rfl
@[simp] theorem setChain_inputs (v : Block) : (setChain v s).inputs = s.inputs := rfl
@[simp] theorem setChain_answer (v : Block) : (setChain v s).answer = s.answer := rfl

@[simp] theorem setCfg_key (v : Reg32) : (setCfg v s).key = s.key := rfl
@[simp] theorem setCfg_iv (v : Reg32) : (setCfg v s).iv = s.iv := rfl
@[simp] theorem setCfg_cfg (v : Reg32) : (setCfg v s).cfg = v := rfl
@[simp] theorem setCfg_status (v : Reg32) : (setCfg v s).status = s.status := rfl
@[simp] theorem setCfg_len (v : Reg32) : (setCfg v s).len = s.len := rfl
@[simp] theorem setCfg_olen (v : Reg32) : (setCfg v s).olen = s.olen := rfl
@[simp] theorem setCfg_rk (v : Reg32) : (setCfg v s).rk = s.rk := rfl
@[simp] theorem setCfg_st (v : Reg32) : (setCfg v s).st = s.st := rfl
@[simp] theorem setCfg_chain (v : Reg32) : (setCfg v s).chain = s.chain := rfl
@[simp] theorem setCfg_counters (v : Reg32) : (setCfg v s).counters = s.counters := rfl
@[simp] theorem setCfg_ibuf (v : Reg32) : (setCfg v s).ibuf = s.ibuf := rfl
@[simp] theorem setCfg_obuf (v : Reg32) : (setCfg v s).obuf = s.obuf := rfl
@[simp] theorem setCfg_bufBytes (v : Reg32) : (setCfg v s).bufBytes = s.bufBytes := rfl
@[simp] theorem setCfg_bufDraw (v : Reg32) : (setCfg v s).bufDraw = s.bufDraw := rfl
@[simp] theorem setCfg_draws (v : Reg32) : (setCfg v s).draws = s.draws := rfl
@[simp] theorem setCfg_inputs (v : Reg32) : (setCfg v s).inputs = s.inputs := rfl
@[simp] theorem setCfg_answer (v : Reg32) : (setCfg v s).answer = s.answer := rfl

@[simp] theorem leaveCounters_key : (leaveCounters s).key = s.key := rfl
@[simp] theorem leaveCounters_iv : (leaveCounters s).iv = s.iv := rfl
@[simp] theorem leaveCounters_cfg : (leaveCounters s).cfg = s.cfg := rfl
@[simp] theorem leaveCounters_status : (leaveCounters s).status = s.status := rfl
@[simp] theorem leaveCounters_len : (leaveCounters s).len = s.len := rfl
@[simp] theorem leaveCounters_olen : (leaveCounters s).olen = s.olen := rfl
@[simp] theorem leaveCounters_rk : (leaveCounters s).rk = s.rk := rfl
@[simp] theorem leaveCounters_st : (leaveCounters s).st = s.st := rfl
@[simp] theorem leaveCounters_chain : (leaveCounters s).chain = s.chain := rfl
@[simp] theorem leaveCounters_counters : (leaveCounters s).counters = Config.freeCounters s.draws := rfl
@[simp] theorem leaveCounters_ibuf : (leaveCounters s).ibuf = s.ibuf := rfl
@[simp] theorem leaveCounters_obuf : (leaveCounters s).obuf = s.obuf := rfl
@[simp] theorem leaveCounters_bufBytes : (leaveCounters s).bufBytes = s.bufBytes := rfl
@[simp] theorem leaveCounters_bufDraw : (leaveCounters s).bufDraw = s.bufDraw := rfl
@[simp] theorem leaveCounters_draws : (leaveCounters s).draws = s.draws + 1 := rfl
@[simp] theorem leaveCounters_inputs : (leaveCounters s).inputs = s.inputs := rfl
@[simp] theorem leaveCounters_answer : (leaveCounters s).answer = s.answer := rfl

@[simp] theorem leaveSt_key : (leaveSt s).key = s.key := rfl
@[simp] theorem leaveSt_iv : (leaveSt s).iv = s.iv := rfl
@[simp] theorem leaveSt_cfg : (leaveSt s).cfg = s.cfg := rfl
@[simp] theorem leaveSt_status : (leaveSt s).status = s.status := rfl
@[simp] theorem leaveSt_len : (leaveSt s).len = s.len := rfl
@[simp] theorem leaveSt_olen : (leaveSt s).olen = s.olen := rfl
@[simp] theorem leaveSt_rk : (leaveSt s).rk = s.rk := rfl
@[simp] theorem leaveSt_st : (leaveSt s).st = freeMatrix s.draws := rfl
@[simp] theorem leaveSt_chain : (leaveSt s).chain = s.chain := rfl
@[simp] theorem leaveSt_counters : (leaveSt s).counters = s.counters := rfl
@[simp] theorem leaveSt_ibuf : (leaveSt s).ibuf = s.ibuf := rfl
@[simp] theorem leaveSt_obuf : (leaveSt s).obuf = s.obuf := rfl
@[simp] theorem leaveSt_bufBytes : (leaveSt s).bufBytes = s.bufBytes := rfl
@[simp] theorem leaveSt_bufDraw : (leaveSt s).bufDraw = s.bufDraw := rfl
@[simp] theorem leaveSt_draws : (leaveSt s).draws = s.draws + 1 := rfl
@[simp] theorem leaveSt_inputs : (leaveSt s).inputs = s.inputs := rfl
@[simp] theorem leaveSt_answer : (leaveSt s).answer = s.answer := rfl

@[simp] theorem leaveChain_key : (leaveChain s).key = s.key := rfl
@[simp] theorem leaveChain_iv : (leaveChain s).iv = s.iv := rfl
@[simp] theorem leaveChain_cfg : (leaveChain s).cfg = s.cfg := rfl
@[simp] theorem leaveChain_status : (leaveChain s).status = s.status := rfl
@[simp] theorem leaveChain_len : (leaveChain s).len = s.len := rfl
@[simp] theorem leaveChain_olen : (leaveChain s).olen = s.olen := rfl
@[simp] theorem leaveChain_rk : (leaveChain s).rk = s.rk := rfl
@[simp] theorem leaveChain_st : (leaveChain s).st = s.st := rfl
@[simp] theorem leaveChain_chain : (leaveChain s).chain = freeBytes s.draws .chain 16 := rfl
@[simp] theorem leaveChain_counters : (leaveChain s).counters = s.counters := rfl
@[simp] theorem leaveChain_ibuf : (leaveChain s).ibuf = s.ibuf := rfl
@[simp] theorem leaveChain_obuf : (leaveChain s).obuf = s.obuf := rfl
@[simp] theorem leaveChain_bufBytes : (leaveChain s).bufBytes = s.bufBytes := rfl
@[simp] theorem leaveChain_bufDraw : (leaveChain s).bufDraw = s.bufDraw := rfl
@[simp] theorem leaveChain_draws : (leaveChain s).draws = s.draws + 1 := rfl
@[simp] theorem leaveChain_inputs : (leaveChain s).inputs = s.inputs := rfl
@[simp] theorem leaveChain_answer : (leaveChain s).answer = s.answer := rfl

@[simp] theorem raise_key (e : ErrorKind) : (raise e s).key = s.key := rfl
@[simp] theorem raise_iv (e : ErrorKind) : (raise e s).iv = s.iv := rfl
@[simp] theorem raise_cfg (e : ErrorKind) : (raise e s).cfg = s.cfg := rfl
@[simp] theorem raise_status (e : ErrorKind) : (raise e s).status = (errorCode e).setWidth 32 := rfl
@[simp] theorem raise_len (e : ErrorKind) : (raise e s).len = s.len := rfl
@[simp] theorem raise_olen (e : ErrorKind) : (raise e s).olen = 0 := rfl
@[simp] theorem raise_rk (e : ErrorKind) : (raise e s).rk = s.rk := rfl
@[simp] theorem raise_st (e : ErrorKind) : (raise e s).st = s.st := rfl
@[simp] theorem raise_chain (e : ErrorKind) : (raise e s).chain = s.chain := rfl
@[simp] theorem raise_counters (e : ErrorKind) : (raise e s).counters = s.counters := rfl
@[simp] theorem raise_ibuf (e : ErrorKind) : (raise e s).ibuf = s.ibuf := rfl
@[simp] theorem raise_obuf (e : ErrorKind) : (raise e s).obuf = s.obuf := rfl
@[simp] theorem raise_bufBytes (e : ErrorKind) : (raise e s).bufBytes = s.bufBytes := rfl
@[simp] theorem raise_bufDraw (e : ErrorKind) : (raise e s).bufDraw = s.bufDraw := rfl
@[simp] theorem raise_draws (e : ErrorKind) : (raise e s).draws = s.draws := rfl
@[simp] theorem raise_inputs (e : ErrorKind) : (raise e s).inputs = s.inputs := rfl
@[simp] theorem raise_answer (e : ErrorKind) : (raise e s).answer = s.answer := rfl

@[simp] theorem succeed_key (n : Reg32) : (succeed n s).key = s.key := rfl
@[simp] theorem succeed_iv (n : Reg32) : (succeed n s).iv = s.iv := rfl
@[simp] theorem succeed_cfg (n : Reg32) : (succeed n s).cfg = s.cfg := rfl
@[simp] theorem succeed_status (n : Reg32) : (succeed n s).status = 0 := rfl
@[simp] theorem succeed_len (n : Reg32) : (succeed n s).len = s.len := rfl
@[simp] theorem succeed_olen (n : Reg32) : (succeed n s).olen = n := rfl
@[simp] theorem succeed_rk (n : Reg32) : (succeed n s).rk = s.rk := rfl
@[simp] theorem succeed_st (n : Reg32) : (succeed n s).st = s.st := rfl
@[simp] theorem succeed_chain (n : Reg32) : (succeed n s).chain = s.chain := rfl
@[simp] theorem succeed_counters (n : Reg32) : (succeed n s).counters = s.counters := rfl
@[simp] theorem succeed_ibuf (n : Reg32) : (succeed n s).ibuf = s.ibuf := rfl
@[simp] theorem succeed_obuf (n : Reg32) : (succeed n s).obuf = s.obuf := rfl
@[simp] theorem succeed_bufBytes (n : Reg32) : (succeed n s).bufBytes = s.bufBytes := rfl
@[simp] theorem succeed_bufDraw (n : Reg32) : (succeed n s).bufDraw = s.bufDraw := rfl
@[simp] theorem succeed_draws (n : Reg32) : (succeed n s).draws = s.draws := rfl
@[simp] theorem succeed_inputs (n : Reg32) : (succeed n s).inputs = s.inputs := rfl
@[simp] theorem succeed_answer (n : Reg32) : (succeed n s).answer = s.answer := rfl

@[simp] theorem expandKey_key : (expandKey s).key = s.key := rfl
@[simp] theorem expandKey_iv : (expandKey s).iv = s.iv := rfl
@[simp] theorem expandKey_cfg : (expandKey s).cfg = s.cfg := rfl
@[simp] theorem expandKey_status : (expandKey s).status = s.status := rfl
@[simp] theorem expandKey_len : (expandKey s).len = s.len := rfl
@[simp] theorem expandKey_olen : (expandKey s).olen = s.olen := rfl
@[simp] theorem expandKey_rk : (expandKey s).rk = overlay s.rk (expand (keyOperand s) (cfgNk s) (cfgNr s)) := rfl
@[simp] theorem expandKey_st : (expandKey s).st = s.st := rfl
@[simp] theorem expandKey_chain : (expandKey s).chain = s.chain := rfl
@[simp] theorem expandKey_counters : (expandKey s).counters = s.counters := rfl
@[simp] theorem expandKey_ibuf : (expandKey s).ibuf = s.ibuf := rfl
@[simp] theorem expandKey_obuf : (expandKey s).obuf = s.obuf := rfl
@[simp] theorem expandKey_bufBytes : (expandKey s).bufBytes = s.bufBytes := rfl
@[simp] theorem expandKey_bufDraw : (expandKey s).bufDraw = s.bufDraw := rfl
@[simp] theorem expandKey_draws : (expandKey s).draws = s.draws := rfl
@[simp] theorem expandKey_inputs : (expandKey s).inputs = s.inputs := rfl
@[simp] theorem expandKey_answer : (expandKey s).answer = s.answer := rfl

@[simp] theorem loadChain_key : (loadChain s).key = s.key := rfl
@[simp] theorem loadChain_iv : (loadChain s).iv = s.iv := rfl
@[simp] theorem loadChain_cfg : (loadChain s).cfg = s.cfg := rfl
@[simp] theorem loadChain_status : (loadChain s).status = s.status := rfl
@[simp] theorem loadChain_len : (loadChain s).len = s.len := rfl
@[simp] theorem loadChain_olen : (loadChain s).olen = s.olen := rfl
@[simp] theorem loadChain_rk : (loadChain s).rk = s.rk := rfl
@[simp] theorem loadChain_st : (loadChain s).st = s.st := rfl
@[simp] theorem loadChain_chain : (loadChain s).chain = s.iv := rfl
@[simp] theorem loadChain_counters : (loadChain s).counters = s.counters := rfl
@[simp] theorem loadChain_ibuf : (loadChain s).ibuf = s.ibuf := rfl
@[simp] theorem loadChain_obuf : (loadChain s).obuf = s.obuf := rfl
@[simp] theorem loadChain_bufBytes : (loadChain s).bufBytes = s.bufBytes := rfl
@[simp] theorem loadChain_bufDraw : (loadChain s).bufDraw = s.bufDraw := rfl
@[simp] theorem loadChain_draws : (loadChain s).draws = s.draws := rfl
@[simp] theorem loadChain_inputs : (loadChain s).inputs = s.inputs := rfl
@[simp] theorem loadChain_answer : (loadChain s).answer = s.answer := rfl

@[simp] theorem applyReset_key : (applyReset s).key = freeBytes s.draws .key 32 := rfl
@[simp] theorem applyReset_iv : (applyReset s).iv = freeBytes s.draws .iv 16 := rfl
@[simp] theorem applyReset_cfg : (applyReset s).cfg = 0 := rfl
@[simp] theorem applyReset_status : (applyReset s).status = 0 := rfl
@[simp] theorem applyReset_len : (applyReset s).len = 0 := rfl
@[simp] theorem applyReset_olen : (applyReset s).olen = 0 := rfl
@[simp] theorem applyReset_rk : (applyReset s).rk = freeBytes s.draws .rk 240 := rfl
@[simp] theorem applyReset_st : (applyReset s).st = freeMatrix s.draws := rfl
@[simp] theorem applyReset_chain : (applyReset s).chain = freeBytes s.draws .chain 16 := rfl
@[simp] theorem applyReset_counters : (applyReset s).counters = Config.freeCounters s.draws := rfl
@[simp] theorem applyReset_ibuf : (applyReset s).ibuf = [] := rfl
@[simp] theorem applyReset_obuf : (applyReset s).obuf = [] := rfl
@[simp] theorem applyReset_bufBytes : (applyReset s).bufBytes = s.bufBytes := rfl
@[simp] theorem applyReset_bufDraw : (applyReset s).bufDraw = s.draws := rfl
@[simp] theorem applyReset_draws : (applyReset s).draws = s.draws + 1 := rfl
@[simp] theorem applyReset_inputs : (applyReset s).inputs = s.inputs := rfl
@[simp] theorem applyReset_answer : (applyReset s).answer = s.answer := rfl

@[simp] theorem issueNext_key (w : Reg32) : (issueNext w s).key = s.key := rfl
@[simp] theorem issueNext_iv (w : Reg32) : (issueNext w s).iv = s.iv := rfl
@[simp] theorem issueNext_cfg (w : Reg32) : (issueNext w s).cfg = s.cfg := rfl
@[simp] theorem issueNext_status (w : Reg32) : (issueNext w s).status = s.status := rfl
@[simp] theorem issueNext_len (w : Reg32) : (issueNext w s).len = s.len := rfl
@[simp] theorem issueNext_olen (w : Reg32) : (issueNext w s).olen = s.olen := rfl
@[simp] theorem issueNext_rk (w : Reg32) : (issueNext w s).rk = s.rk := rfl
@[simp] theorem issueNext_st (w : Reg32) : (issueNext w s).st = s.st := rfl
@[simp] theorem issueNext_chain (w : Reg32) : (issueNext w s).chain = s.chain := rfl
@[simp] theorem issueNext_counters (w : Reg32) : (issueNext w s).counters = s.counters := rfl
@[simp] theorem issueNext_ibuf (w : Reg32) : (issueNext w s).ibuf = s.ibuf := rfl
@[simp] theorem issueNext_obuf (w : Reg32) : (issueNext w s).obuf = s.obuf := rfl
@[simp] theorem issueNext_bufBytes (w : Reg32) : (issueNext w s).bufBytes = s.bufBytes := rfl
@[simp] theorem issueNext_bufDraw (w : Reg32) : (issueNext w s).bufDraw = s.bufDraw := rfl
@[simp] theorem issueNext_draws (w : Reg32) : (issueNext w s).draws = s.draws := rfl
@[simp] theorem issueNext_inputs (w : Reg32) : (issueNext w s).inputs = .transaction (.command w) :: s.inputs := rfl
@[simp] theorem issueNext_answer (w : Reg32) : (issueNext w s).answer = s.answer := rfl

end Sys2Proof.Machine
end

