-- ==== Sys2Proof/Laws/Ops.lean ====
section
/-! SUPPORT. One law per shared operation on registers and data spaces, cited instead of unfolding it. -/

namespace Sys2Proof.Machine

/-- What an overlay holds: the sequence where it reaches, the old bytes beyond it. -/
theorem overlay_getElem {n : Nat} (v : Bytes n) (bs : List Byte) (k : Nat) (h : k < n) :
    (overlay v bs)[k] = bs.getD k v[k] := by
  simp [overlay]

theorem overlay_getElem?_beyond {n : Nat} (v : Bytes n) (bs : List Byte) {k : Nat} (h : bs.length ≤ k) :
    (overlay v bs)[k]? = v[k]? := by
  by_cases hk : k < n
  · simp [overlay_getElem, hk, List.getElem?_eq_none h]
  · simp [hk]

theorem firstBytes_length {m : Nat} (v : Bytes m) (n : Nat) : (firstBytes v n).length = min n m := by
  simp [firstBytes]

theorem firstBytes_getElem? {m : Nat} (v : Bytes m) (n k : Nat) :
    (firstBytes v n)[k]? = if k < n then v[k]? else none := by
  simp [firstBytes, List.getElem?_take]

/-- A sequence that fits is what the first bytes read as after the overlay. -/
theorem firstBytes_overlay {n : Nat} (v : Bytes n) (bs : List Byte) (h : bs.length ≤ n) :
    firstBytes (overlay v bs) bs.length = bs := by
  apply List.ext_getElem?
  intro k
  rw [firstBytes_getElem?]
  split
  · rename_i hk
    rw [Vector.getElem?_eq_getElem (by omega), overlay_getElem _ _ _ (by omega)]
    simp [hk]
  · rename_i hk
    exact (List.getElem?_eq_none (by omega)).symm

theorem memRead_getElem (s : State) (a k : Nat) (h : k < 16) : (memRead s a)[k] = ibufByte s (a + k) := by
  simp [memRead]

/-- One byte of OBUF after a block has been written at a. -/
theorem obufByte_memWrite (s : State) (a : Nat) (v : Block) (x : Nat) :
    obufByte (memWrite a v s) x = if h : a ≤ x ∧ x < a + 16 then v[x - a]'(by omega) else obufByte s x := by
  unfold obufByte
  rw [memWrite_obuf, Memory.find?_writeSeq]
  simp only [Vector.length_toList, memWrite_bufDraw]
  split
  · rename_i h
    rw [show v.toList[x - a]? = some (v[x - a]'(by omega)) from by
      rw [← Vector.getElem_toList, List.getElem?_eq_getElem]; simp; omega]
    rfl
  · rfl

theorem obufByte_congr {s t : State} (ho : t.obuf = s.obuf) (hd : t.bufDraw = s.bufDraw) (x : Nat) :
    obufByte t x = obufByte s x := by
  simp [obufByte, ho, hd]

theorem ibufByte_congr {s t : State} (hi : t.ibuf = s.ibuf) (hd : t.bufDraw = s.bufDraw) (x : Nat) :
    ibufByte t x = ibufByte s x := by
  simp [ibufByte, hi, hd]

theorem memRead_congr {s t : State} (hi : t.ibuf = s.ibuf) (hd : t.bufDraw = s.bufDraw) (a : Nat) :
    memRead t a = memRead s a := by
  simp only [memRead, ibufByte_congr hi hd]

/-- Error entry, as one record. -/
theorem raise_eq (e : ErrorKind) (s : State) :
    raise e s = { s with status := (errorCode e).setWidth 32, olen := 0 } := rfl

/-- The successful end of a command, as one record. -/
theorem succeed_eq (n : Reg32) (s : State) : succeed n s = { s with status := 0, olen := n } := rfl

end Sys2Proof.Machine
end

