-- ==== Sys2Proof/Laws/Expand.lean ====
section
/-! SUPPORT. The sizes of the key expander and what the expansion of a command leaves in RK. -/

namespace Sys2Proof.Machine

theorem expandLoop_length (nk : Nat) (key : List Byte) (n : Nat) :
    (expandLoop nk key n).length = key.length + 4 * n := by
  induction n with
  | zero => rfl
  | succ n ih => simp [expandLoop, expandStep, wordBytes, ih]; omega

/-- Later turns of the loop leave the earlier bytes alone. -/
theorem expandLoop_getElem? (nk : Nat) (key : List Byte) {n m : Nat} (h : n ≤ m) {k : Nat}
    (hk : k < key.length + 4 * n) : (expandLoop nk key m)[k]? = (expandLoop nk key n)[k]? := by
  induction m, h using Nat.le_induction with
  | base => rfl
  | succ m hm ih =>
    rw [← ih, expandLoop, expandStep, List.getElem?_append_left]
    rw [expandLoop_length]; omega

theorem expand_length {key : List Byte} {nk nr : Nat} (hkey : key.length = 4 * nk) (h : nk ≤ 4 * (nr + 1)) :
    (expand key nk nr).length = 16 * (nr + 1) := by
  rw [expand, expandLoop_length]; omega

/-- The three configurations, read off CFG. -/
theorem Configured.fields {s : State} (h : Configured s) :
    cfgValid s = true ∧ ((cfgNk s = 4 ∧ cfgNr s = 10) ∨ (cfgNk s = 6 ∧ cfgNr s = 12) ∨ (cfgNk s = 8 ∧ cfgNr s = 14)) := by
  rcases h with h | h | h <;> simp [cfgValid, cfgNk, cfgNr, h]

/-- Without a configuration a legal CFG is 0, with one it is not. -/
theorem CfgLegal.valid_iff {s : State} (h : CfgLegal s.cfg) : cfgValid s = true ↔ Configured s := by
  rcases h with h | h | h | h <;> simp [cfgValid, Configured, h]

theorem cfgNk_congr {s t : State} (h : t.cfg = s.cfg) : cfgNk t = cfgNk s := by simp [cfgNk, h]
theorem cfgNr_congr {s t : State} (h : t.cfg = s.cfg) : cfgNr t = cfgNr s := by simp [cfgNr, h]

theorem keyOperand_length {s : State} (h : Configured s) : (keyOperand s).length = 4 * cfgNk s := by
  rcases h.fields.2 with ⟨hk, -⟩ | ⟨hk, -⟩ | ⟨hk, -⟩ <;> simp [keyOperand, firstBytes_length, hk]

theorem keySchedule_length {s : State} (h : Configured s) : (keySchedule s).length = 16 * (cfgNr s + 1) := by
  refine expand_length (keyOperand_length h) ?_
  rcases h.fields.2 with ⟨hk, hr⟩ | ⟨hk, hr⟩ | ⟨hk, hr⟩ <;> omega

theorem keySchedule_fits {s : State} (h : Configured s) : 16 * (cfgNr s + 1) ≤ 240 := by
  rcases h.fields.2 with ⟨-, hr⟩ | ⟨-, hr⟩ | ⟨-, hr⟩ <;> omega

/-- After the expansion RK holds the schedule of the key, and keeps its bytes beyond it. -/
theorem expandKey_scheduleWritten {s : State} (h : Configured s) : ScheduleWritten s (expandKey s) where
  schedule := by
    have := firstBytes_overlay s.rk (keySchedule s) (by rw [keySchedule_length h]; exact keySchedule_fits h)
    rwa [keySchedule_length h] at this
  rest k hk := by
    rw [expandKey_rk]
    exact overlay_getElem?_beyond _ _ (by have := keySchedule_length h; unfold keySchedule at this; omega)

/-- What the rounds of a command read from RK is the schedule of its key. -/
theorem schedule_expandKey {s : State} (h : Configured s) : schedule (expandKey s) = keySchedule s :=
  (expandKey_scheduleWritten h).schedule

end Sys2Proof.Machine
end

