-- ==== Sys2Proof/Laws/Loop.lean ====
section
/-! SUPPORT. The block loop: what one turn writes, that the loop leaves everything but OBUF and CHAIN alone, and the
blocks it leaves in OBUF. -/

namespace Sys2Proof.Machine

/-- The state with new contents of OBUF and CHAIN: all a turn of the loop can do. -/
def withOutput (o : Memory) (c : Block) (s : State) : State := { s with obuf := o, chain := c }

@[simp] theorem withOutput_key (o : Memory) (c : Block) (s : State) : (withOutput o c s).key = s.key := rfl
@[simp] theorem withOutput_iv (o : Memory) (c : Block) (s : State) : (withOutput o c s).iv = s.iv := rfl
@[simp] theorem withOutput_cfg (o : Memory) (c : Block) (s : State) : (withOutput o c s).cfg = s.cfg := rfl
@[simp] theorem withOutput_status (o : Memory) (c : Block) (s : State) : (withOutput o c s).status = s.status := rfl
@[simp] theorem withOutput_len (o : Memory) (c : Block) (s : State) : (withOutput o c s).len = s.len := rfl
@[simp] theorem withOutput_olen (o : Memory) (c : Block) (s : State) : (withOutput o c s).olen = s.olen := rfl
@[simp] theorem withOutput_rk (o : Memory) (c : Block) (s : State) : (withOutput o c s).rk = s.rk := rfl
@[simp] theorem withOutput_st (o : Memory) (c : Block) (s : State) : (withOutput o c s).st = s.st := rfl
@[simp] theorem withOutput_chain (o : Memory) (c : Block) (s : State) : (withOutput o c s).chain = c := rfl
@[simp] theorem withOutput_counters (o : Memory) (c : Block) (s : State) : (withOutput o c s).counters = s.counters := rfl
@[simp] theorem withOutput_ibuf (o : Memory) (c : Block) (s : State) : (withOutput o c s).ibuf = s.ibuf := rfl
@[simp] theorem withOutput_obuf (o : Memory) (c : Block) (s : State) : (withOutput o c s).obuf = o := rfl
@[simp] theorem withOutput_bufBytes (o : Memory) (c : Block) (s : State) : (withOutput o c s).bufBytes = s.bufBytes := rfl
@[simp] theorem withOutput_bufDraw (o : Memory) (c : Block) (s : State) : (withOutput o c s).bufDraw = s.bufDraw := rfl
@[simp] theorem withOutput_draws (o : Memory) (c : Block) (s : State) : (withOutput o c s).draws = s.draws := rfl
@[simp] theorem withOutput_inputs (o : Memory) (c : Block) (s : State) : (withOutput o c s).inputs = s.inputs := rfl
@[simp] theorem withOutput_answer (o : Memory) (c : Block) (s : State) : (withOutput o c s).answer = s.answer := rfl

/-- The loop does nothing that its turns do not do. -/
theorem forBlocks_keeps {P : State → Prop} {f : Nat → State → State} (hf : ∀ b s, P s → P (f b s)) (n : Nat)
    {s : State} (h : P s) : P (forBlocks f n s) := by
  induction n with
  | zero => exact h
  | succ n ih => exact hf n _ ih

/-- Turns that agree in every state the loop can reach make the same loop. -/
theorem forBlocks_congr {P : State → Prop} {f g : Nat → State → State} (hf : ∀ b s, P s → P (f b s))
    (hfg : ∀ b s, P s → f b s = g b s) (n : Nat) {s : State} (h : P s) : forBlocks f n s = forBlocks g n s := by
  induction n with
  | zero => rfl
  | succ n ih => rw [forBlocks, forBlocks, hfg n _ (forBlocks_keeps hf n h), ih]

theorem chainTurn_eq (out newChain : Block → Block → Block) (b : Nat) (s : State) :
    chainTurn out newChain b s =
      withOutput (s.obuf.writeSeq (16 * b) (out (memRead s (16 * b)) s.chain).toList)
        (newChain (memRead s (16 * b)) (out (memRead s (16 * b)) s.chain)) s := rfl

theorem plainTurn_eq (out : Block → Block) (b : Nat) (s : State) :
    plainTurn out b s =
      withOutput (s.obuf.writeSeq (16 * b) (out (memRead s (16 * b))).toList) s.chain s := rfl

/-- A loop of turns that write OBUF and CHAIN alone writes OBUF and CHAIN alone. -/
theorem forBlocks_frame {f : Nat → State → State} (hf : ∀ b s, ∃ o c, f b s = withOutput o c s) (n : Nat) (s : State) :
    ∃ o c, forBlocks f n s = withOutput o c s :=
  forBlocks_keeps (P := fun t => ∃ o c, t = withOutput o c s)
    (fun b t ⟨o, c, ht⟩ => by
      obtain ⟨o', c', h⟩ := hf b t
      exact ⟨o', c', by rw [h, ht]; rfl⟩)
    n ⟨s.obuf, s.chain, rfl⟩

/-- The outputs of a chain of turns over a list of input blocks. -/
def chainRun (out newChain : Block → Block → Block) : Block → List Block → List Block
  | _, [] => []
  | c, x :: xs => out x c :: chainRun out newChain (newChain x (out x c)) xs

/-- The chaining value after a list of input blocks. -/
def chainAfter (out newChain : Block → Block → Block) : Block → List Block → Block
  | c, [] => c
  | c, x :: xs => chainAfter out newChain (newChain x (out x c)) xs

theorem chainRun_length (out newChain : Block → Block → Block) (c : Block) (xs : List Block) :
    (chainRun out newChain c xs).length = xs.length := by
  induction xs generalizing c with
  | nil => rfl
  | cons x xs ih => simp [chainRun, ih]

theorem chainRun_append (out newChain : Block → Block → Block) (c : Block) (xs ys : List Block) :
    chainRun out newChain c (xs ++ ys) =
      chainRun out newChain c xs ++ chainRun out newChain (chainAfter out newChain c xs) ys := by
  induction xs generalizing c with
  | nil => rfl
  | cons x xs ih => simp [chainRun, chainAfter, ih]

theorem chainAfter_append (out newChain : Block → Block → Block) (c : Block) (xs ys : List Block) :
    chainAfter out newChain c (xs ++ ys) = chainAfter out newChain (chainAfter out newChain c xs) ys := by
  induction xs generalizing c with
  | nil => rfl
  | cons x xs ih => simp [chainAfter, ih]

/-- in[0], ..., in[n-1]. -/
def firstBlocks (s : State) (n : Nat) : List Block := (List.range n).map fun b => memRead s (16 * b)

theorem firstBlocks_succ (s : State) (n : Nat) : firstBlocks s (n + 1) = firstBlocks s n ++ [memRead s (16 * n)] := by
  simp [firstBlocks, List.range_succ]

theorem firstBlocks_length (s : State) (n : Nat) : (firstBlocks s n).length = n := by simp [firstBlocks]

theorem outBlocks_succ (t : State) (n : Nat) : outBlocks t (n + 1) = outBlocks t n ++ [outBlock t n] := by
  simp [outBlocks, List.range_succ]

/-- A block written at 16n is the block read there, and the blocks before it are as they were. -/
theorem outBlock_memWrite_self (n : Nat) (v : Block) (s : State) : outBlock (memWrite (16 * n) v s) n = v := by
  apply Vector.ext
  intro k hk
  simp [outBlock, obufByte_memWrite]

theorem outBlocks_memWrite_below (n : Nat) (v : Block) (s : State) :
    outBlocks (memWrite (16 * n) v s) n = outBlocks s n := by
  apply List.map_congr_left
  intro b hb
  have hb : b < n := List.mem_range.1 hb
  apply Vector.ext
  intro k hk
  simp only [outBlock, Vector.getElem_ofFn, obufByte_memWrite]
  rw [dif_neg (by omega)]

theorem outBlocks_setChain (c : Block) (s : State) (n : Nat) : outBlocks (setChain c s) n = outBlocks s n := rfl

theorem outBlocks_congr {s t : State} (ho : t.obuf = s.obuf) (hd : t.bufDraw = s.bufDraw) (n : Nat) :
    outBlocks t n = outBlocks s n := by
  exact List.map_congr_left fun b _ => by simp only [outBlock, obufByte_congr ho hd]

/-- Turns do not change what the loop reads from IBUF. -/
theorem chainLoop_memRead (out newChain : Block → Block → Block) (n : Nat) (s : State) (a : Nat) :
    memRead (forBlocks (chainTurn out newChain) n s) a = memRead s a := by
  obtain ⟨o, c, h⟩ := forBlocks_frame (fun b t => ⟨_, _, chainTurn_eq out newChain b t⟩) n s
  rw [h]
  exact memRead_congr rfl rfl a

/-- THE CHAINED LOOP: the blocks it leaves in OBUF and the value it leaves in CHAIN. -/
theorem chainLoop_spec (out newChain : Block → Block → Block) (n : Nat) (s : State) :
    outBlocks (forBlocks (chainTurn out newChain) n s) n = chainRun out newChain s.chain (firstBlocks s n) ∧
    (forBlocks (chainTurn out newChain) n s).chain = chainAfter out newChain s.chain (firstBlocks s n) := by
  induction n with
  | zero => exact ⟨rfl, rfl⟩
  | succ n ih =>
    obtain ⟨hout, hchain⟩ := ih
    simp only [forBlocks, chainTurn, outBlocks_setChain, setChain_chain, firstBlocks_succ, chainRun_append,
      chainAfter_append, outBlocks_succ, chainLoop_memRead]
    refine ⟨?_, by rw [← hchain]; rfl⟩
    rw [outBlocks_memWrite_below, hout]
    congr 1
    show [outBlock (memWrite (16 * n) _ _) n] = _
    rw [outBlock_memWrite_self, hchain]
    rfl

/-- THE PLAIN LOOP: the blocks it leaves in OBUF. -/
theorem plainLoop_spec (out : Block → Block) (n : Nat) (s : State) :
    outBlocks (forBlocks (plainTurn out) n s) n = (firstBlocks s n).map out := by
  induction n with
  | zero => rfl
  | succ n ih =>
    obtain ⟨o, c, h⟩ := forBlocks_frame (fun b t => ⟨_, _, plainTurn_eq out b t⟩) n s
    have hread : memRead (forBlocks (plainTurn out) n s) (16 * n) = memRead s (16 * n) := by
      rw [h]; exact memRead_congr rfl rfl _
    simp only [forBlocks, plainTurn, firstBlocks_succ, List.map_append, outBlocks_succ]
    rw [outBlocks_memWrite_below, ih, outBlock_memWrite_self, hread]
    rfl

/-- A plain loop leaves CHAIN alone. -/
theorem plainLoop_chain (out : Block → Block) (n : Nat) (s : State) :
    (forBlocks (plainTurn out) n s).chain = s.chain :=
  forBlocks_keeps (P := fun t => t.chain = s.chain) (f := plainTurn out) (fun _ _ h => h) n rfl

/-- A loop of n turns leaves every byte of OBUF from 16n on alone. -/
theorem forBlocks_obuf_beyond {f : Nat → State → State}
    (hf : ∀ b s, ∃ v c, f b s = setChain c (memWrite (16 * b) v s)) (n : Nat) (s : State) {x : Nat} (hx : 16 * n ≤ x) :
    obufByte (forBlocks f n s) x = obufByte s x := by
  induction n with
  | zero => rfl
  | succ n ih =>
    obtain ⟨v, c, h⟩ := hf n (forBlocks f n s)
    rw [forBlocks, h]
    show obufByte (memWrite (16 * n) v _) x = _
    rw [obufByte_memWrite, dif_neg (by omega)]
    exact ih (by omega)

end Sys2Proof.Machine
end

