-- ==== Sys2Proof/Laws/Commands.lean ====
section
/-! SUPPORT. What each shape of command can do: one case law per shared meaning, with the guards. -/

namespace Sys2Proof.Machine

theorem lengthOk_iff (n : Nat) : lengthOk n = true ↔ n % 16 = 0 := by simp [lengthOk]

theorem lengthOk_false_iff (n : Nat) : lengthOk n = false ↔ n % 16 ≠ 0 := by simp [lengthOk]

/-- The check of KEXP, ENCB and DECB, case by case. -/
theorem configCheck_cases (s : State) :
    (cfgValid s = false ∧ configCheck s = some .invalidKeyLength) ∨ (cfgValid s = true ∧ configCheck s = none) := by
  cases h : cfgValid s <;> simp [configCheck, h]

/-- The checks of a message command, case by case in their order. -/
theorem msgChecks_cases (needsIV ivp : Bool) (s : State) :
    (cfgValid s = false ∧ msgChecks needsIV ivp s = some .invalidKeyLength) ∨
    (cfgValid s = true ∧ s.len.toNat % 16 ≠ 0 ∧ msgChecks needsIV ivp s = some .lengthError) ∨
    (cfgValid s = true ∧ s.len.toNat % 16 = 0 ∧ needsIV = true ∧ ivp = false ∧
      msgChecks needsIV ivp s = some .missingIV) ∨
    (cfgValid s = true ∧ s.len.toNat % 16 = 0 ∧ (needsIV = true → ivp = true) ∧
      msgChecks needsIV ivp s = none) := by
  cases hv : cfgValid s
  · simp [msgChecks, hv]
  · by_cases hl : s.len.toNat % 16 = 0
    · cases needsIV <;> cases ivp <;> simp [msgChecks, hv, hl, lengthOk]
    · simp [msgChecks, hv, hl, lengthOk]

/-- CFG, case by case. -/
theorem execCfg_cases (bits : Nat) (s : State) :
    (∃ nk nr, deriveConfig bits = some (nk, nr) ∧
      execCfg bits s = .next (succeed 0 (setCfg (cfgWord bits nk nr) s))) ∨
    (deriveConfig bits = none ∧ execCfg bits s = .next (raise .invalidKeyLength (setCfg 0 s))) := by
  unfold execCfg
  cases h : deriveConfig bits with
  | none => exact .inr ⟨rfl, rfl⟩
  | some p => exact .inl ⟨p.1, p.2, rfl, rfl⟩

/-- KEXP, case by case. -/
theorem execKexp_cases (s : State) :
    (cfgValid s = false ∧ execKexp s = .next (raise .invalidKeyLength s)) ∨
    (cfgValid s = true ∧
      execKexp s = .next (succeed (BitVec.ofNat 32 (16 * (cfgNr s + 1))) (leaveCounters (expandKey s)))) := by
  unfold execKexp
  rcases configCheck_cases s with ⟨hv, h⟩ | ⟨hv, h⟩ <;> simp [h, hv]

/-- The state a single-block command leaves. -/
def blockResult (f : Block → List Byte → Nat → Block) (s : State) : State :=
  succeed 16 (leaveCounters (leaveSt (memWrite 0 (f (memRead s 0) (schedule (expandKey s)) (cfgNr s)) (expandKey s))))

/-- A single-block command, case by case. -/
theorem blockCommand_cases (f : Block → List Byte → Nat → Block) (s : State) :
    (cfgValid s = false ∧ blockCommand f s = .next (raise .invalidKeyLength s)) ∨
    (cfgValid s = true ∧ blockCommand f s = .next (blockResult f s)) := by
  unfold blockCommand
  rcases configCheck_cases s with ⟨hv, h⟩ | ⟨hv, h⟩
  · exact .inl ⟨hv, by rw [h]⟩
  · exact .inr ⟨hv, by
      rw [h]
      simp only [blockResult, cfgNr_congr (expandKey_cfg s), memRead_congr (expandKey_ibuf s) (expandKey_bufDraw s)]⟩

/-- A message command, case by case: the three errors, its work, or the refusal of a LEN beyond BUF_BYTES. -/
theorem messageCommand_cases (needsIV ivp : Bool) (work : State → State) (s : State) :
    (cfgValid s = false ∧ messageCommand needsIV ivp work s = .next (raise .invalidKeyLength s)) ∨
    (cfgValid s = true ∧ s.len.toNat % 16 ≠ 0 ∧ messageCommand needsIV ivp work s = .next (raise .lengthError s)) ∨
    (cfgValid s = true ∧ s.len.toNat % 16 = 0 ∧ needsIV = true ∧ ivp = false ∧
      messageCommand needsIV ivp work s = .next (raise .missingIV s)) ∨
    (cfgValid s = true ∧ s.len.toNat % 16 = 0 ∧ (needsIV = true → ivp = true) ∧ s.len.toNat ≤ s.bufBytes ∧
      messageCommand needsIV ivp work s = .next (succeed s.len (work s))) ∨
    (cfgValid s = true ∧ s.len.toNat % 16 = 0 ∧ (needsIV = true → ivp = true) ∧ s.bufBytes < s.len.toNat ∧
      messageCommand needsIV ivp work s = .refused .beyondBuffer) := by
  unfold messageCommand
  rcases msgChecks_cases needsIV ivp s with ⟨hv, h⟩ | ⟨hv, hl, h⟩ | ⟨hv, hl, hn, hi, h⟩ | ⟨hv, hl, hi, h⟩
  · exact .inl ⟨hv, by rw [h]⟩
  · exact .inr (.inl ⟨hv, hl, by rw [h]⟩)
  · exact .inr (.inr (.inl ⟨hv, hl, hn, hi, by rw [h]⟩))
  · by_cases hb : s.len.toNat ≤ s.bufBytes
    · exact .inr (.inr (.inr (.inl ⟨hv, hl, hi, hb, by rw [h]; exact if_pos hb⟩)))
    · exact .inr (.inr (.inr (.inr ⟨hv, hl, hi, by omega, by rw [h]; exact if_neg hb⟩)))

/-- The work of an ECB command whose turns write OBUF and CHAIN alone, as one record. -/
theorem plainWork_frame {turn : Nat → State → State} (h : ∀ b s, ∃ o c, turn b s = withOutput o c s) (s : State) :
    ∃ o c, plainWork turn s = leaveCounters (leaveSt (withOutput o c (expandKey s))) := by
  obtain ⟨o, c, hf⟩ := forBlocks_frame h (blockCount s) (expandKey s)
  exact ⟨o, c, by rw [plainWork, hf]⟩

/-- The work of a CBC or CFB command, as one record. -/
theorem chainWork_frame {turn : Nat → State → State} (h : ∀ b s, ∃ o c, turn b s = withOutput o c s) (s : State) :
    ∃ o c, chainWork turn s = leaveCounters (leaveSt (leaveChain (withOutput o c (expandKey s)))) := by
  obtain ⟨o, c, hf⟩ := forBlocks_frame h (blockCount s) (loadChain (expandKey s))
  exact ⟨o, c, by rw [chainWork, hf]; rfl⟩

/-- Turns that write OBUF and CHAIN alone read the same schedule and Nr in every state of the loop. -/
theorem schedule_withOutput (o : Memory) (c : Block) (s : State) :
    schedule (withOutput o c s) = schedule s ∧ cfgNr (withOutput o c s) = cfgNr s := ⟨rfl, rfl⟩

end Sys2Proof.Machine
end

