-- ==== Sys2Proof/Laws/Encode.lean ====
section
/-! SUPPORT. The laws of format C (spec/30_encoding.md R71): the word built from its fields has those fields, and a
word with Z = 0 is built from its fields. -/

namespace Sys2Proof

/-- Bit i of a word of format C. -/
theorem formatC_getLsbD (opc : BitVec 4) (mode : BitVec 2) (dir ivp : Bool) (imm : BitVec 16) (i : Nat) :
    (formatC opc mode dir ivp imm).getLsbD i =
      if i < 16 then imm.getLsbD i
      else if i < 24 then false
      else if i = 24 then ivp
      else if i = 25 then dir
      else if i < 28 then mode.getLsbD (i - 26)
      else opc.getLsbD (i - 28) := by
  unfold formatC
  simp only [BitVec.getLsbD_append, BitVec.getLsbD_zero]
  by_cases h16 : i < 16
  · simp [h16]
  by_cases h24 : i < 24
  · simp [h16, h24, show i - 16 < 8 by omega]
  by_cases e24 : i = 24
  · simp [e24]
  by_cases e25 : i = 25
  · simp [e25]
  by_cases h28 : i < 28
  · simp [h16, h24, e24, e25, h28, show ¬ i - 16 < 8 by omega, show i - 16 - 8 ≠ 0 by omega, show i - 16 - 8 - 1 ≠ 0 by omega,
      show i - 16 - 8 - 1 - 1 = i - 26 by omega]
    omega
  · simp [h16, h24, e24, e25, h28, show ¬ i - 16 < 8 by omega, show i - 16 - 8 ≠ 0 by omega, show i - 16 - 8 - 1 ≠ 0 by omega,
      show ¬ i - 16 - 8 - 1 - 1 < 2 by omega, show i - 16 - 8 - 1 - 1 - 2 = i - 28 by omega]

variable (opc : BitVec 4) (mode : BitVec 2) (dir ivp : Bool) (imm : BitVec 16)

@[simp] theorem opcField_formatC : opcField (formatC opc mode dir ivp imm) = opc := by
  apply BitVec.eq_of_getLsbD_eq
  intro i hi
  rw [opcField, BitVec.getLsbD_extractLsb', formatC_getLsbD]
  simp [hi, show ¬ 28 + i < 16 by omega, show ¬ 28 + i < 24 by omega, show 28 + i ≠ 24 by omega, show 28 + i ≠ 25 by omega]

@[simp] theorem modeField_formatC : modeField (formatC opc mode dir ivp imm) = mode := by
  apply BitVec.eq_of_getLsbD_eq
  intro i hi
  rw [modeField, BitVec.getLsbD_extractLsb', formatC_getLsbD]
  simp [hi, show ¬ 26 + i < 16 by omega, show ¬ 26 + i < 24 by omega, show 26 + i ≠ 24 by omega, show 26 + i ≠ 25 by omega,
    show 26 + i < 28 by omega]

@[simp] theorem dirBit_formatC : dirBit (formatC opc mode dir ivp imm) = dir := by
  simp only [dirBit, formatC_getLsbD]
  simp

@[simp] theorem ivpBit_formatC : ivpBit (formatC opc mode dir ivp imm) = ivp := by
  simp only [ivpBit, formatC_getLsbD]
  simp

@[simp] theorem zField_formatC : zField (formatC opc mode dir ivp imm) = 0 := by
  apply BitVec.eq_of_getLsbD_eq
  intro i hi
  rw [zField, BitVec.getLsbD_extractLsb', formatC_getLsbD]
  simp [show 16 + i < 24 by omega]

@[simp] theorem immField_formatC : immField (formatC opc mode dir ivp imm) = imm := by
  apply BitVec.eq_of_getLsbD_eq
  intro i hi
  rw [immField, BitVec.getLsbD_extractLsb', formatC_getLsbD]
  simp [hi]

/-- A word with Z = 0 is its five fields in format C. -/
theorem formatC_of_fields {w : Reg32} (hz : zField w = 0) :
    formatC (opcField w) (modeField w) (dirBit w) (ivpBit w) (immField w) = w := by
  apply BitVec.eq_of_getLsbD_eq
  intro i hi
  rw [formatC_getLsbD]
  split
  · rw [immField, BitVec.getLsbD_extractLsb']
    simp [*]
  split
  · have hbit := congrArg (fun v => v.getLsbD (i - 16)) hz
    simp only [zField, BitVec.getLsbD_extractLsb', show 16 + (i - 16) = i by omega] at hbit
    simpa [show i - 16 < 8 by omega] using hbit.symm
  split
  · subst i; rfl
  split
  · subst i; rfl
  split
  · rw [modeField, BitVec.getLsbD_extractLsb', show 26 + (i - 26) = i by omega]
    simp [show i - 26 < 2 by omega]
  · rw [opcField, BitVec.getLsbD_extractLsb', show 28 + (i - 28) = i by omega]
    simp [show i - 28 < 4 by omega]

end Sys2Proof
end

