-- ==== Sys2Proof/Laws/Modes.lean ====
section
/-! SUPPORT. The six mode functions as runs of one chained turn, and their lengths: what the block loop computes is
stated once for `chainRun` (Laws/Loop.lean) and read off here for each mode. -/

namespace Sys2Proof.Machine

variable (rk : List Byte) (nr : Nat)

theorem ecbEnc_eq_map (xs : List Block) : ecbEnc rk nr xs = xs.map fun x => cipher x rk nr := by
  induction xs with
  | nil => rfl
  | cons x xs ih => simp [ecbEnc, ih]

theorem ecbDec_eq_map (xs : List Block) : ecbDec rk nr xs = xs.map fun x => invCipher x rk nr := by
  induction xs with
  | nil => rfl
  | cons x xs ih => simp [ecbDec, ih]

theorem cbcEnc_eq_run (c : Block) (xs : List Block) :
    cbcEnc rk nr c xs = chainRun (fun x c => cipher (xorBlock x c) rk nr) (fun _ o => o) c xs := by
  induction xs generalizing c with
  | nil => rfl
  | cons x xs ih => simp [cbcEnc, chainRun, ih]

theorem cbcDec_eq_run (c : Block) (xs : List Block) :
    cbcDec rk nr c xs = chainRun (fun x c => xorBlock (invCipher x rk nr) c) (fun x _ => x) c xs := by
  induction xs generalizing c with
  | nil => rfl
  | cons x xs ih => simp [cbcDec, chainRun, ih]

theorem cfbEnc_eq_run (c : Block) (xs : List Block) :
    cfbEnc rk nr c xs = chainRun (fun x c => xorBlock x (cipher c rk nr)) (fun _ o => o) c xs := by
  induction xs generalizing c with
  | nil => rfl
  | cons x xs ih => simp [cfbEnc, chainRun, ih]

theorem cfbDec_eq_run (c : Block) (xs : List Block) :
    cfbDec rk nr c xs = chainRun (fun x c => xorBlock x (cipher c rk nr)) (fun x _ => x) c xs := by
  induction xs generalizing c with
  | nil => rfl
  | cons x xs ih => simp [cfbDec, chainRun, ih]

/-- The blocks of a message are as many as its LEN gives. -/
theorem inBlocks_length (s : State) : (inBlocks s).length = blockCount s := by simp [inBlocks]

/-- With LEN a multiple of 16 the blocks cover the message exactly. -/
theorem blockCount_mul {s : State} (h : s.len.toNat % 16 = 0) : 16 * blockCount s = s.len.toNat := by
  unfold blockCount
  omega

end Sys2Proof.Machine
end

