-- ==== Sys2Proof/Laws/PerInstr.lean ====
section
/-! SUPPORT. Statements made per instruction. TableRow: the encoding of a command lies in its row of
spec/opcode_table.json, that is (w & mask) == match (spec/30_encoding.md R77). -/

namespace Sys2Proof.Laws.TableRow

/-- The `mask` column of a command's row. -/
def rowMask : Instr → Reg32
  | .cfg _ => 0xFFFF0000
  | .kexp => 0xFFFFFFFF
  | .encb => 0xFFFFFFFF
  | .decb => 0xFFFFFFFF
  | .encEcb _ => 0xFEFFFFFF
  | .encCbc _ => 0xFEFFFFFF
  | .encCfb _ => 0xFEFFFFFF
  | .decEcb _ => 0xFEFFFFFF
  | .decCbc _ => 0xFEFFFFFF
  | .decCfb _ => 0xFEFFFFFF

/-- The `match` column of a command's row. -/
def rowMatch : Instr → Reg32
  | .cfg _ => 0x10000000
  | .kexp => 0x20000000
  | .encb => 0x30000000
  | .decb => 0x32000000
  | .encEcb _ => 0x40000000
  | .encCbc _ => 0x44000000
  | .encCfb _ => 0x48000000
  | .decEcb _ => 0x42000000
  | .decCbc _ => 0x46000000
  | .decCfb _ => 0x4A000000

def Statement (i : Instr) : Prop := encode i &&& rowMask i = rowMatch i

theorem cfg (bits : Nat) : Statement (.cfg bits) := by
  apply BitVec.eq_of_getLsbD_eq
  intro i hi
  rw [BitVec.getLsbD_and, encode, formatC_getLsbD]
  interval_cases i <;> simp [rowMask, rowMatch]

theorem kexp : Statement .kexp := by unfold Statement; decide
theorem encb : Statement .encb := by unfold Statement; decide
theorem decb : Statement .decb := by unfold Statement; decide
theorem encEcb (ivp : Bool) : Statement (.encEcb ivp) := by unfold Statement; cases ivp <;> decide
theorem encCbc (ivp : Bool) : Statement (.encCbc ivp) := by unfold Statement; cases ivp <;> decide
theorem encCfb (ivp : Bool) : Statement (.encCfb ivp) := by unfold Statement; cases ivp <;> decide
theorem decEcb (ivp : Bool) : Statement (.decEcb ivp) := by unfold Statement; cases ivp <;> decide
theorem decCbc (ivp : Bool) : Statement (.decCbc ivp) := by unfold Statement; cases ivp <;> decide
theorem decCfb (ivp : Bool) : Statement (.decCfb ivp) := by unfold Statement; cases ivp <;> decide

end Sys2Proof.Laws.TableRow
end

