-- ==== Sys2Proof/Laws/Round.lean ====
section
/-! SUPPORT. The 4×4 state by its cells, and the multiplier by its terms. -/

namespace Sys2Proof.Machine

@[simp] theorem cell_matrixOf (f : Fin 4 → Fin 4 → Byte) (r c : Fin 4) : cell (matrixOf f) r c = f r c := by
  simp [cell, matrixOf]

/-- States are equal when their cells are. -/
theorem matrix_ext {S T : StateMatrix} (h : ∀ r c, cell S r c = cell T r c) : S = T := by
  apply Vector.ext
  intro r hr
  apply Vector.ext
  intro c hc
  exact h ⟨r, hr⟩ ⟨c, hc⟩

theorem storeState_getElem (S : StateMatrix) (k : Nat) (h : k < 16) :
    (storeState S)[k] = cell S ⟨k % 4, by omega⟩ ⟨k / 4, by omega⟩ := by
  simp [storeState]

theorem cell_loadState (b : Block) (r c : Fin 4) : cell (loadState b) r c = b[r.val + 4 * c.val] := by
  simp [loadState]

/-- The contribution of bit k of b to a product, the multiplicand already at x^k·a. -/
def gmulTerm (a b : Byte) (k : Nat) : Byte := if b.getLsbD k then a else 0

theorem gmulTerm_xor (a b c : Byte) (k : Nat) : gmulTerm a (b ^^^ c) k = gmulTerm a b k ^^^ gmulTerm a c k := by
  simp only [gmulTerm, BitVec.getLsbD_xor]
  cases b.getLsbD k <;> cases c.getLsbD k <;> simp

/-- A turn of the multiplier adds one term. -/
theorem gmulStep_eq (b p a : Byte) (k : Nat) : gmulStep b (p, a) k = (p ^^^ gmulTerm a b k, xtime a) := by
  simp only [gmulStep, gmulTerm]
  split <;> simp

theorem xor_cancel_right (x y k : Byte) : (x ^^^ k) ^^^ (y ^^^ k) = x ^^^ y := by
  rw [show (x ^^^ k) ^^^ (y ^^^ k) = (x ^^^ y) ^^^ (k ^^^ k) by ac_rfl]
  simp

/-- xtime is additive. -/
theorem xtime_xor (a b : Byte) : xtime (a ^^^ b) = xtime a ^^^ xtime b := by
  simp only [xtime, BitVec.getLsbD_xor, BitVec.shiftLeft_xor_distrib]
  cases a.getLsbD 7 <;> cases b.getLsbD 7 <;> simp only [if_true, if_false, Bool.xor_false, Bool.xor_true,
    Bool.not_true, Bool.not_false, Bool.false_eq_true]
  · ac_rfl
  · ac_rfl
  · exact (xor_cancel_right _ _ _).symm

end Sys2Proof.Machine
end

