-- ==== Sys2Proof/Tests/Slice0.lean ====
section
/-! SUPPORT. Tests of the model on values taken from spec/95_test_vectors.md (V<n>) and from words written out bit by
bit from spec/30_encoding.md, and for every statement with hypotheses a witness that meets them. -/

open Sys2Proof Sys2Proof.Machine

namespace Sys2Proof.Tests

-- One proof at a time: run side by side, the evaluations below would need several times the memory.
set_option Elab.async false

/-! ## Helpers -/

/-- The n bytes of a hexadecimal string read as one number, byte 0 leftmost (spec/00_scope.md R11). -/
def hexBytes (n v : Nat) : List Byte := (List.range n).map fun k => BitVec.ofNat 8 (v / 256 ^ (n - 1 - k))

/-- Such a string as a block. -/
def hexBlock (v : Nat) : Block := Vector.ofFn fun k => BitVec.ofNat 8 (v / 256 ^ (15 - k.val))

/-- What the outcome's next state shows; none where the machine stops. -/
def seen {α : Type} (show' : State → α) : Host.Outcome State Fault Refusal → Option α
  | .next t => some (show' t)
  | .fault _ => none
  | .refused _ => none

/-- A state after reset with CFG, LEN and the leading bytes of KEY, IV and IBUF written. -/
def loaded (cfg len : Reg32) (key iv data : List Byte) : State :=
  { State.reset with
    cfg := cfg, len := len
    key := overlay State.reset.key key
    iv := overlay State.reset.iv iv
    ibuf := Memory.writeSeq [] 0 data }

/-- STATUS, OLEN and OBUF[0..n-1]. -/
def result (n : Nat) (t : State) : Reg32 × Reg32 × List Byte := (t.status, t.olen, (List.range n).map (obufByte t))

/-- STATUS and OLEN. -/
def ending (t : State) : Reg32 × Reg32 := (t.status, t.olen)

def k128 : List Byte := hexBytes 16 0x2b7e151628aed2a6abf7158809cf4f3c
def ivSeq : List Byte := hexBytes 16 0x000102030405060708090a0b0c0d0e0f
def plain2 : List Byte := hexBytes 32 0x6bc1bee22e409f96e93d7e117393172aae2d8a571e03ac9c9eb76fac45af8e51

/-! ## Well-formedness (R75, R80) -/

theorem test_wellFormed_refuses_wide_immediate : Instr.wellFormed (.cfg 65536) = false := by decide
theorem test_wellFormed_accepts_widest_immediate : Instr.wellFormed (.cfg 65535) = true := by decide

/-! ## Decoding: words written bit by bit from R71 (OPC MODE DIR IVP Z IMM16) and R77 -/

theorem test_decode_cfg192 : decode 0b0001_00_0_0_00000000_0000000011000000 = .ok (.cfg 192) := by decide
theorem test_decode_cfg_top : decode 0b0001_00_0_0_00000000_1111111111111111 = .ok (.cfg 65535) := by decide
theorem test_decode_kexp : decode 0b0010_00_0_0_00000000_0000000000000000 = .ok .kexp := by decide
theorem test_decode_encb : decode 0b0011_00_0_0_00000000_0000000000000000 = .ok .encb := by decide
theorem test_decode_decb : decode 0b0011_00_1_0_00000000_0000000000000000 = .ok .decb := by decide
theorem test_decode_encEcb : decode 0b0100_00_0_1_00000000_0000000000000000 = .ok (.encEcb true) := by decide
theorem test_decode_encCbc : decode 0b0100_01_0_1_00000000_0000000000000000 = .ok (.encCbc true) := by decide
theorem test_decode_encCfb : decode 0b0100_10_0_0_00000000_0000000000000000 = .ok (.encCfb false) := by decide
theorem test_decode_decEcb : decode 0b0100_00_1_0_00000000_0000000000000000 = .ok (.decEcb false) := by decide
theorem test_decode_decCbc : decode 0b0100_01_1_1_00000000_0000000000000000 = .ok (.decCbc true) := by decide
theorem test_decode_decCfb : decode 0b0100_10_1_1_00000000_0000000000000000 = .ok (.decCfb true) := by decide

/-- V66, every word of it. -/
theorem test_decode_illegal_words :
    ∀ w ∈ ([0x00000000, 0xFFFFFFFF, 0x50000000, 0xF0000000, 0x4C000000, 0x4D000000, 0x30010000, 0x31000000,
      0x34000000, 0x30000001, 0x20000001, 0x22000000, 0x11000080, 0x14000080, 0x40000010, 0x40800000] : List Nat),
      decodeTableWord 32 w = none := by decide

theorem test_decodeTableWord : decodeTableWord 32 0x4A000000 = some (.decCfb false) := by decide

/-! ## Arithmetic, ROMs and the expander's words -/

/-- V50, with the reduction and without. -/
theorem test_xtime : xtime 0x80 = 0x1b ∧ xtime 0x57 = 0xae ∧ xtime 0xae = 0x47 ∧ xtime 0x7f = 0xfe := by decide
/-- V51. -/
theorem test_gmul : gmul 0x57 0x83 = 0xc1 ∧ gmul 0x57 0x13 = 0xfe ∧ gmul 0xff 0xff = 0x13 ∧ gmul 0x53 0xca = 0x01 := by
  decide
/-- V53. -/
theorem test_rcon : rcon 9 = ⟨0x1b, 0, 0, 0⟩ ∧ rcon 14 = ⟨0x4d, 0, 0, 0⟩ := by decide
/-- V56, V57. -/
theorem test_roms : sBox 0x53 = 0xed ∧ sBox 0xf0 = 0x8c ∧ sBox 0xc9 = 0xdd ∧ invSBox 0x7c = 0x01 ∧ invSBox 0xfe = 0x0c := by
  decide
/-- V58: Σ a·SBOX[a] catches two swapped entries. -/
theorem test_sbox_checksum :
    ((List.range 256).map fun a => a * (sBox (BitVec.ofNat 8 a)).toNat).sum = 4100348 := by decide +kernel
/-- V17: the rotating case, and i mod 8 = 4. -/
theorem test_tWord : tWord 8 ⟨0x09, 0x14, 0xdf, 0xf4⟩ 8 = ⟨0xfb, 0x9e, 0xbf, 0x01⟩ ∧
    tWord 12 ⟨0x20, 0x67, 0xfc, 0xde⟩ 8 = ⟨0xb7, 0x85, 0xb0, 0x1d⟩ ∧
    tWord 10 ⟨1, 2, 3, 4⟩ 6 = ⟨1, 2, 3, 4⟩ := by decide

/-! ## Layers: V30, V36 -/

def seqBlock : Block := hexBlock 0x000102030405060708090a0b0c0d0e0f

theorem test_subBytes :
    storeState (subBytes (loadState seqBlock)) = hexBlock 0x637c777bf26b6fc53001672bfed7ab76 := by decide +kernel
theorem test_invSubBytes :
    storeState (invSubBytes (loadState seqBlock)) = hexBlock 0x52096ad53036a538bf40a39e81f3d7fb := by decide +kernel
theorem test_shiftRows :
    storeState (shiftRows (loadState seqBlock)) = hexBlock 0x00050a0f04090e03080d02070c01060b := by decide +kernel
theorem test_invShiftRows :
    storeState (invShiftRows (loadState seqBlock)) = hexBlock 0x000d0a0704010e0b0805020f0c090603 := by decide +kernel
theorem test_mixColumns :
    storeState (mixColumns (loadState seqBlock)) = hexBlock 0x02070005060304010a0f080d0e0b0c09 := by decide +kernel
theorem test_invMixColumns :
    storeState (invMixColumns (loadState seqBlock)) = hexBlock 0x0a0f080d0e0b0c090207000506030401 := by decide +kernel
theorem test_addRoundKey :
    storeState (addRoundKey (loadState (hexBlock 0x3243f6a8885a308d313198a2e0370734)) k128 0) =
      hexBlock 0x193de3bea0f4e22b9ac68d2ae9f84808 := by decide +kernel

/-! ## One step per command -/

/-- V16: CFG 192 by its word, from reset. -/
theorem test_cfg192 :
    seen (fun t => (t.cfg, ending t)) (step (State.reset.withFetchWord 32 0x100000C0)) = some (0x80C600C0, 0, 0) := by
  decide +kernel
/-- V16: CFG 160 fails and clears a configuration. -/
theorem test_cfg160 :
    seen (fun t => (t.cfg, ending t)) (step ((loaded 0x80A40080 5 [] [] []).withFetchWord 32 0x100000A0)) =
      some (0, 1, 0) := by decide +kernel

/-- V11: AES-192, round key 12, by KEXP. -/
theorem test_kexp192 :
    seen (fun t => ((firstBytes t.rk 208).drop 192, ending t))
      (exec .kexp (loaded 0x80C600C0 0 (hexBytes 24 0x8e73b0f7da0e6452c810f32b809079e562f8ead2522c6b7b) [] [])) =
      some (hexBytes 16 0xe98ba06f448c773c8ecc720401002202, 0, 208) := by decide +kernel
/-- V24: AES-256, with a LEN that is no multiple of 16 (V28). -/
theorem test_encb256 :
    seen (result 16) (exec .encb (loaded 0x80E80100 5
      (hexBytes 32 0x000102030405060708090a0b0c0d0e0f101112131415161718191a1b1c1d1e1f) []
      (hexBytes 16 0x00112233445566778899aabbccddeeff))) =
      some (0, 16, hexBytes 16 0x8ea2b7ca516745bfeafc49904b496089) := by decide +kernel
/-- V21: AES-128. -/
theorem test_decb128 :
    seen (result 16) (exec .decb (loaded 0x80A40080 0 k128 [] (hexBytes 16 0x3925841d02dc09fbdc118597196a0b32))) =
      some (0, 16, hexBytes 16 0x3243f6a8885a308d313198a2e0370734) := by decide +kernel

/-- The schedule of V10. -/
def rk128 : List Byte :=
  hexBytes 32 0x2b7e151628aed2a6abf7158809cf4f3ca0fafe1788542cb123a339392a6c7605 ++
  hexBytes 32 0xf2c295f27a96b9435935807a7359f67f3d80477d4716fe3e1e237e446d7a883b ++
  hexBytes 32 0xef44a541a8525b7fb671253bdb0bad00d4d1c6f87c839d87caf2b8bc11f915bc ++
  hexBytes 32 0x6d88a37a110b3efddbf98641ca0093fd4e54f70e5f5fc9f384a64fb24ea6dc4f ++
  hexBytes 32 0xead27321b58dbad2312bf5607f8d292fac7766f319fadc2128d12941575c006e ++
  hexBytes 16 0xd014f9a8c9ee2589e13f0cc8b6630ca6

theorem test_expand128 : expand k128 4 10 = rk128 := by decide +kernel

/-- P[0] and P[1] of the mode vectors (V40 to V42). -/
def p0 : Block := hexBlock 0x6bc1bee22e409f96e93d7e117393172a
def p1 : Block := hexBlock 0xae2d8a571e03ac9c9eb76fac45af8e51

/-- V42. -/
theorem test_encEcb_blocks : ecbEnc rk128 10 [p0] = [hexBlock 0x3ad77bb40d7a3660a89ecaf32466ef97] := by decide +kernel
/-- V42. -/
theorem test_decEcb_blocks : ecbDec rk128 10 [hexBlock 0xf5d3d58503b9699de785895a96fdbaaf] = [p1] := by decide +kernel
/-- V41. -/
theorem test_encCfb_blocks : cfbEnc rk128 10 seqBlock [p0, p1] =
    [hexBlock 0x3b3fd92eb72dad20333449f8e83cfb4a, hexBlock 0xc8a64537a0b3a93fcde3cdad9f1ce58b] := by decide +kernel
/-- V40. -/
theorem test_decCbc_blocks : cbcDec rk128 10 seqBlock
    [hexBlock 0x7649abac8119b246cee98e9b12e9197d, hexBlock 0x5086cb9b507219ee95db113a917678b2] = [p0, p1] := by
  decide +kernel
/-- V40, two blocks, by the command. -/
theorem test_encCbc : seen (result 32) (exec (.encCbc true) (loaded 0x80A40080 32 k128 ivSeq plain2)) =
    some (0, 32, hexBytes 32 0x7649abac8119b246cee98e9b12e9197d5086cb9b507219ee95db113a917678b2) := by decide +kernel
/-- V41, V47, two blocks, by the command. -/
theorem test_decCfb : seen (result 32) (exec (.decCfb true) (loaded 0x80A40080 32 k128 ivSeq
      (hexBytes 32 0x3b3fd92eb72dad20333449f8e83cfb4ac8a64537a0b3a93fcde3cdad9f1ce58b))) =
    some (0, 32, plain2) := by decide +kernel
/-- R163, V48: a message of no blocks succeeds in every mode and writes no byte of OBUF. -/
theorem test_empty_messages :
    ∀ i ∈ [Instr.encEcb false, .encCbc true, .encCfb true, .decEcb false, .decCbc true, .decCfb true],
      seen (fun t => (t.obuf, ending t)) (exec i (loaded 0x80E80100 0 [] [] [1])) = some ([], 0, 0) := by
  decide +kernel

/-! ## Errors: V64, V48, V63 -/

theorem test_priority :
    seen ending (exec (.encCbc false) (loaded 0 5 [] [] [])) = some (1, 0) ∧
    seen ending (exec (.encCbc false) (loaded 0x80A40080 5 [] [] [])) = some (2, 0) ∧
    seen ending (exec (.encCbc false) (loaded 0x80A40080 16 [] [] [])) = some (3, 0) ∧
    seen ending (hostCommand 0x4C000000 (loaded 0 5 [] [] [])) = some (4, 0) ∧
    seen (fun t => (t.cfg, ending t)) (hostCommand 0x10010080 (loaded 0x80A40080 0 [] [] [])) =
      some (0x80A40080, 4, 0) := by decide +kernel
theorem test_missing_iv_at_length_0 :
    seen ending (exec (.encCbc false) (loaded 0x80A40080 0 [] [] [])) = some (3, 0) := by decide +kernel
theorem test_longest_lengths :
    seen ending (exec (.decCfb false) (loaded 0x80A40080 0xFFFFFFFF [] [] [])) = some (2, 0) ∧
    seen ending (exec (.decCfb false) (loaded 0x80A40080 0xFFFFFFF0 [] [] [])) = some (3, 0) := by decide +kernel

/-- R53, R56 on the core with the smallest buffers: LEN = BUF_BYTES runs, a longer message is refused after its error
checks, and no byte past the end exists. -/
theorem test_smallest_buffers :
    let s := { loaded 0x80A40080 16 [] [] [] with bufBytes := 16 }
    seen ending (exec (.encEcb false) s) = some (0, 16) ∧
    seen ending (exec (.encEcb false) { s with len := 32 }) = none ∧
    seen ending (exec (.encCbc false) { s with len := 32 }) = some (3, 0) ∧
    seen (fun t => t.ibuf) (transact (.writeByte .ibuf 15 7) s) = some [(15, 7)] ∧
    seen (fun t => t.ibuf) (transact (.writeByte .ibuf 16 7) s) = none := by decide +kernel

/-! ## The host and the platform: R56, R193, R200 -/

theorem test_write_and_read_key :
    seen (fun t => t.answer) (transact (.readByte .key 31)
      { State.reset with key := State.reset.key.set 31 0xa5 }) = some (some (.byte 0xa5)) ∧
    seen (fun _ => ()) (transact (.writeByte .key 32 0) State.reset) = none ∧
    seen (fun _ => ()) (transact (.writeByte .rk 0 0) State.reset) = none ∧
    seen (fun _ => ()) (transact (.readByte .st 0) State.reset) = none := by decide +kernel
theorem test_write_ibuf_byte :
    seen (fun t => (t.ibuf, ibufByte t 7)) (transact (.writeByte .ibuf 7 0x5a) (loaded 0 0 [] [] [1, 2])) =
      some ([(0, 1), (1, 2), (7, 0x5a)], 0x5a) := by decide +kernel
theorem test_write_len : seen (fun t => (t.len, t.inputs))
    (step { State.reset with inputs := [.transaction (.writeReg .len 32), .reset] }) = some (32, [.reset]) := by
  decide +kernel
theorem test_reset_input : seen (fun t => (t.cfg, t.len, t.inputs))
    (step { loaded 0x80A40080 32 k128 [] [] with inputs := [.reset] }) = some (0, 0, []) := by decide +kernel

/-! ## Witnesses: for every statement with hypotheses, a concrete case that meets all of them -/

def s128 : State := loaded 0x80A40080 32 k128 ivSeq plain2
def s192 : State := loaded 0x80C600C0 16 [] [] []
def s256 : State := loaded 0x80E80100 0xFFFFFFF0 [] [] []

/-- s with IBUF holding t's OBUF[0..n-1], as a host copies it. -/
def readBack (t : State) (n : Nat) : State :=
  { t with ibuf := Memory.writeSeq [] 0 ((List.range n).map (obufByte t)) }

theorem readBack_ibuf (t : State) (n a : Nat) (h : a < n) : ibufByte (readBack t n) a = obufByte t a := by
  simp [readBack, ibufByte, Memory.find?_writeSeq, h]

theorem witness_DecodeOfEncodeIsTheCommand : Instr.wellFormed (.cfg 0) = true ∧ Instr.wellFormed (.cfg 65535) = true ∧
    Instr.wellFormed (.decCfb true) = true := by decide
theorem witness_LegalWordIsTheEncodingOfItsCommand :
    decode 0x1000FFFF = .ok (.cfg 65535) ∧ decode 0x4B000000 = .ok (.decCfb true) := by decide
/-- One word per condition of R78, in its order, each at an edge of its field. -/
theorem witness_IllegalWordsAndTheirEffect :
    decode 0x10010080 = .error .nonzeroZ ∧ decode 0x0F00FFFF = .error .reservedOpc ∧
    decode 0x50000000 = .error .reservedOpc ∧ decode 0x11000000 = .error .strayField ∧
    decode 0x20000001 = .error .strayField ∧ decode 0x34000000 = .error .strayField ∧
    decode 0x4C000000 = .error .reservedMode ∧ decode 0x48000001 = .error .strayField := by decide
theorem witness_GmulFieldLaws : gmul 0x00 0xff = 0 ∧ gmul 0xff 0x00 = 0 ∧ gmul 0xff 0x1c = 0x01 := by decide
theorem witness_RconPowersOfX : rcon (1 + 1) = ⟨xtime (rcon 1).b0, 0, 0, 0⟩ := by decide
theorem witness_CfgCommandRule :
    (65535 < 65536 ∧ decode (BitVec.ofNat 32 (0x10000000 + 65535)) = .ok (.cfg 65535)) ∧
    ∀ bits ∈ [0, 127, 129, 191, 193, 255, 257, 65535], bits ≠ 128 ∧ bits ≠ 192 ∧ bits ≠ 256 := by decide
theorem witness_WordFunctionsOfTheExpander :
    40 % 4 = 0 ∧ 48 % 6 = 0 ∧ (8 > 6 ∧ 12 % 8 = 4) ∧ (5 % 8 ≠ 0 ∧ 5 % 8 ≠ 4) ∧ (10 % 6 ≠ 0 ∧ 6 ≤ 6) := by decide
theorem witness_ExpandFollowsTheRecurrence :
    ((4, 10) ∈ [(4, 10), (6, 12), (8, 14)] ∧ k128.length = 4 * 4 ∧ 4 ≤ 4 ∧ 43 < 4 * (10 + 1)) ∧
    ((8, 14) ∈ [(4, 10), (6, 12), (8, 14)] ∧ plain2.length = 4 * 8 ∧ 8 ≤ 8 ∧ 59 < 4 * (14 + 1)) := by decide
theorem witness_KexpCommandRule :
    cfgValid State.reset = false ∧ Configured s128 ∧ Configured s192 ∧ Configured s256 := by decide +kernel
theorem witness_KexpIsDeterministic : Configured s256 ∧ ∃ t, exec .kexp s256 = .next t := ⟨by decide +kernel, _, rfl⟩
theorem witness_SubBytesActsOnEachByte : 0 < 16 ∧ 15 < 16 := by decide
theorem witness_XorBlockLaws : 0 < 16 ∧ 15 < 16 := by decide
theorem witness_AddRoundKeyIsLinearAndSelfInverse : 15 < 16 ∧ 16 * 0 + 15 < k128.length := by decide
theorem witness_EncbCommandRule : cfgValid State.reset = false ∧ Configured s128 := by decide +kernel
theorem witness_DecbCommandRule : cfgValid State.reset = false ∧ Configured s192 := by decide +kernel
theorem witness_DecbUndoesEncb :
    Configured s128 ∧ ∃ t, exec .encb s128 = .next t ∧ (readBack t 16).cfg = t.cfg ∧ (readBack t 16).key = t.key ∧
      ∀ a, a < 16 → ibufByte (readBack t 16) a = obufByte t a :=
  ⟨by decide +kernel, _, rfl, rfl, rfl, fun a h => readBack_ibuf _ 16 a h⟩
/-- The first block, whose predecessor is the IV, and a later one. -/
theorem witness_ModesHaveTheirClosedForms :
    [seqBlock, seqBlock][0]? = some seqBlock ∧ [seqBlock, seqBlock][1]? = some seqBlock ∧
    (seqBlock :: cbcEnc k128 0 seqBlock [seqBlock])[0]? = some seqBlock ∧
    (seqBlock :: cfbEnc k128 0 seqBlock [seqBlock])[0]? = some seqBlock ∧
    (seqBlock :: [seqBlock, seqBlock])[1]? = some seqBlock := ⟨rfl, rfl, rfl, rfl, rfl⟩

def withLen (n : Reg32) (s : State) : State := { s with len := n }

/-- The same core with another BUF_BYTES. -/
def onCore (bufBytes : Nat) (s : State) : State := { s with bufBytes := bufBytes }

/-! The message commands: no configuration, a length that is no multiple of 16, and one that is, each within BUF_BYTES. -/

abbrev noConfigCase (s : State) : Prop := s.len.toNat ≤ s.bufBytes ∧ cfgValid s = false
abbrev lengthErrorCase (s : State) : Prop :=
  s.len.toNat ≤ s.bufBytes ∧ cfgValid s = true ∧ s.len.toNat % 16 ≠ 0
abbrev acceptedCase (s : State) : Prop :=
  s.len.toNat ≤ s.bufBytes ∧ cfgValid s = true ∧ Configured s ∧ s.len.toNat % 16 = 0

theorem witness_EncEcbCommandRule :
    noConfigCase State.reset ∧ lengthErrorCase (withLen 15 s128) ∧
    acceptedCase (withLen 0 s128) ∧ acceptedCase (withLen 16 (onCore 16 s128)) := by
  decide +kernel
theorem witness_EncCbcCommandRule :
    noConfigCase (withLen 17 State.reset) ∧ lengthErrorCase (withLen 17 (onCore 17 s192)) ∧
    acceptedCase (withLen 0 s192) ∧ acceptedCase (withLen 16 (onCore 17 s192)) := by
  decide +kernel
theorem witness_EncCfbCommandRule :
    noConfigCase State.reset ∧ lengthErrorCase (withLen 0xFFFFFFFF s256) ∧
    acceptedCase (withLen 0 s256) ∧ acceptedCase (withLen 0xFFFFFFF0 s256) := by
  decide +kernel
theorem witness_DecEcbCommandRule :
    noConfigCase State.reset ∧ lengthErrorCase (withLen 1 s128) ∧
    acceptedCase (withLen 16 (onCore 16 s128)) ∧ acceptedCase (withLen 0xFFFFFFF0 s128) := by
  decide +kernel
theorem witness_DecCbcCommandRule :
    noConfigCase State.reset ∧ lengthErrorCase (withLen 31 (onCore 31 s192)) ∧
    acceptedCase (withLen 0 (onCore 16 s192)) ∧ acceptedCase (withLen 32 (onCore 32 s192)) := by
  decide +kernel
theorem witness_DecCfbCommandRule :
    noConfigCase State.reset ∧ lengthErrorCase (withLen 0xFFFFFFF1 s256) ∧
    acceptedCase (withLen 0 s256) ∧ acceptedCase (withLen 0xFFFFFFF0 (onCore 0xFFFFFFF0 s256)) := by
  decide +kernel
theorem witness_EcbIgnoresTheIvpBit : (withLen 16 (onCore 16 s128)).len.toNat ≤ (withLen 16 (onCore 16 s128)).bufBytes := by
  decide +kernel
/-- R53 at its edge, on the core with the smallest buffers: LEN = BUF_BYTES runs, 16 bytes more is refused, and each
error is reported. -/
theorem witness_MessagesBeyondTheBuffer :
    isMessage (.decCfb true) = true ∧
    (onCore 16 s128).bufBytes < (onCore 16 s128).len.toNat ∧
    (onCore 16 State.reset).bufBytes < (withLen 32 (onCore 16 State.reset)).len.toNat ∧
    (onCore 16 s128).bufBytes < (withLen 17 (onCore 16 s128)).len.toNat ∧
    (requiresIV (.decCfb false) = true ∧ givesIV (.decCfb false) = false) := by decide +kernel

theorem readBack_keeps (t : State) (n : Nat) : (readBack t n).bufBytes = t.bufBytes ∧ (readBack t n).cfg = t.cfg ∧ (readBack t n).key = t.key ∧
    (readBack t n).iv = t.iv ∧ (readBack t n).len = t.len := ⟨rfl, rfl, rfl, rfl, rfl⟩

theorem witness_MessagesRoundTripOnTheHardware :
    (Instr.encCfb true, Instr.decCfb true) ∈ [((Instr.encEcb false), (Instr.decEcb false)),
      ((Instr.encEcb true), (Instr.decEcb true)), ((Instr.encCbc true), (Instr.decCbc true)),
      ((Instr.encCfb true), (Instr.decCfb true))] ∧
    Configured s128 ∧ s128.len.toNat % 16 = 0 ∧ s128.len.toNat = 32 ∧ ∃ t, exec (.encCfb true) s128 = .next t ∧
      ((readBack t 32).bufBytes = t.bufBytes ∧ (readBack t 32).cfg = t.cfg ∧ (readBack t 32).key = t.key ∧ (readBack t 32).iv = t.iv ∧
        (readBack t 32).len = t.len) ∧ ∀ a, a < 32 → ibufByte (readBack t 32) a = obufByte t a :=
  ⟨by decide, by decide +kernel, by decide +kernel, by decide +kernel, _, rfl, readBack_keeps _ 32, readBack_ibuf _ 32⟩
theorem witness_InvalidKeyLengthHasTwoCauses :
    (64 ≠ 128 ∧ 64 ≠ 192 ∧ 64 ≠ 256) ∧ needsConfig .kexp = true ∧ needsConfig (.decCfb true) = true ∧
    cfgValid State.reset = false := by decide
theorem witness_ErrorsAreReportedInOrder : decode 0x4C000000 = .error .reservedMode ∧ decode 0x30000000 = .ok .encb ∧
    needsConfig .encb = true ∧ (needsConfig (.encCbc false) = true ∧ isMessage (.encCbc false) = true ∧
      requiresIV (.encCbc false) = true ∧ givesIV (.encCbc false) = false) ∧ needsConfig (.decEcb false) = true ∧
    FitsBuffer .encb (onCore 16 s128) ∧ FitsBuffer (.decEcb false) (withLen 16 (onCore 16 s128)) := by decide +kernel
theorem witness_CommandsNeverWriteTheirOperands :
    FitsBuffer .kexp (onCore 16 s128) ∧ FitsBuffer (.encCbc true) s128 ∧ ∃ t, exec (.encCbc true) s128 = .next t :=
  ⟨by decide +kernel, by decide +kernel, _, rfl⟩
theorem witness_BufBytesIsFixed : ∃ t, step (onCore 16 { s128 with inputs := [.reset] }) = .next t := ⟨_, rfl⟩
theorem witness_BufBytesMattersOnlyForTheCapacity :
    FitsBuffer (.encCbc true) s128 ∧ FitsBuffer (.encCbc true) { s128 with bufBytes := 32 } := by decide +kernel
theorem witness_FailingCommandsWriteOnlyStatusAndOlen :
    (∃ t, exec .kexp State.reset = .next t ∧ t.status ≠ 0) ∧ (∃ t, exec (.cfg 64) s128 = .next t ∧ t.status ≠ 0) :=
  ⟨⟨_, rfl, by decide⟩, _, rfl, by decide⟩
theorem witness_OnlyCfgWritesTheConfiguration : needsConfig .kexp = true ∧ ∃ t, exec .kexp s192 = .next t :=
  ⟨rfl, _, rfl⟩
theorem witness_HiddenRegistersHaveTheirWriters :
    (requiresIV .decb = false ∧ ∃ t, exec .decb s128 = .next t) ∧ (∃ t, exec .kexp s128 = .next t) ∧
    (∃ t, exec (.cfg 256) s128 = .next t) := ⟨⟨rfl, _, rfl⟩, ⟨_, rfl⟩, _, rfl⟩
/-- Two states that agree on what a command reads and differ in STATUS, OLEN, CHAIN and OBUF. -/
theorem witness_CommandsDependOnlyOnWhatTheyRead :
    let s' := { s128 with status := 3, olen := 7, chain := seqBlock, obuf := [(0, 1)] }
    s' ≠ s128 ∧ FitsBuffer (.encCbc true) s128 ∧ s'.bufBytes = s128.bufBytes ∧ CfgLegal s128.cfg ∧ s'.cfg = s128.cfg ∧ s'.len = s128.len ∧ keyOperand s' = keyOperand s128 ∧
    s'.iv = s128.iv ∧ (∀ a, a < dataLength (.encCbc true) s128 → ibufByte s' a = ibufByte s128 a) ∧
    needsConfig (.encCbc true) = true ∧ ∃ t, exec (.encCbc true) s128 = .next t ∧ t.status = 0 :=
  ⟨fun h => absurd (congrArg State.status h) (by decide), by decide +kernel, rfl, by decide +kernel, rfl, rfl, rfl, rfl,
    fun _ _ => rfl, rfl, _, rfl, rfl⟩
theorem witness_ConfigurationStaysLegal :
    CfgLegal State.reset.cfg ∧ CfgLegal s256.cfg ∧ ∃ t, step s256 = .next t := ⟨by decide, by decide, _, rfl⟩
theorem witness_StepRunsTheDecodedCommand :
    ({ s128 with inputs := [.transaction (.command 0x30000000)] }).inputs = .transaction (.command 0x30000000) :: [] ∧
    decode 0x30000000 = .ok .encb ∧ decode 0x31000000 = .error .strayField := ⟨rfl, by decide, by decide⟩
theorem witness_PlacedWordRunsNext :
    decode (BitVec.ofNat 32 0x4B000000) = .ok (.decCfb true) ∧ 0x4B000000 < 2 ^ 32 := by decide
theorem witness_HostTransactionsOfTheTable :
    31 < 32 ∧ 15 < 16 ∧ 239 < 240 ∧ 4294967294 < State.reset.bufBytes ∧ 15 < (State.resetWith 16).bufBytes ∧ decode 0x20000000 = .ok .kexp ∧
    (∀ t ∈ ([.writeByte .key 32 0, .writeByte .iv 16 0, .writeByte .ibuf 4294967295 0, .writeByte .obuf 0 0,
      .writeReg .cfg 0, .readByte .rk 240, .readByte .chain 0] : List Transaction),
      t.inTable State.reset.bufBytes = false) ∧
    (Transaction.readByte .obuf 16).inTable (State.resetWith 16).bufBytes = false := by decide
theorem witness_EveryStepOfTheTableGoesOn :
    let s := { s128 with inputs := [.transaction (.command 0x45000000)] }
    (∀ t rest, s.inputs = .transaction t :: rest → t.inTable s.bufBytes = true) ∧
    ∀ w i rest, s.inputs = .transaction (.command w) :: rest → decode w = .ok i → FitsBuffer i s := by
  refine ⟨fun t rest h => ?_, fun w i rest _ _ => ?_⟩
  · cases h
    rfl
  · intro _
    decide +kernel
theorem witness_InvariantIsKeptByEveryStep : MachineInv (State.resetWith 16) ∧ ∃ t, step State.reset = .next t :=
  ⟨⟨.inl rfl, by decide, fun h => absurd rfl h, .nil, .nil, by decide, nofun, nofun⟩, _, rfl⟩
theorem witness_InvariantHoldsAtReset : Config.BufBytesLegal 16 ∧ Config.BufBytesLegal 4294967295 := by decide
theorem witness_ResetClearsTheControlRegisters :
    ({ s128 with inputs := [.reset] }).inputs = .reset :: [] ∧ needsConfig .encb = true := ⟨rfl, rfl⟩

end Sys2Proof.Tests
end

