-- ==== Sys2Proof/Proofs/Effects.lean ====
section
/-! PROOFS. What a command, a host transaction and a step can do, said once each: the frame of the work of a command,
and the case laws of `exec`, `hostCommand`, `transact` and `step` that every invariant is derived from. -/

namespace Sys2Proof.Machine

/-! ## The frame of the work of a command -/

/-- What can be listed in a data space `o` that began as `m` and was written below address n alone: the canonical
form is kept, and every address from n on was listed before. -/
structure Memory.GrownBelow (n : Nat) (m o : Memory) : Prop where
  wf : m.wf → o.wf
  mem : ∀ c ∈ o, c.1 < n ∨ c ∈ m

theorem Memory.GrownBelow.refl (n : Nat) (m : Memory) : Memory.GrownBelow n m m := ⟨id, fun _ => .inr⟩

theorem Memory.GrownBelow.trans {n : Nat} {m o p : Memory} (h : Memory.GrownBelow n m o)
    (h' : Memory.GrownBelow n o p) : Memory.GrownBelow n m p :=
  ⟨h'.wf ∘ h.wf, fun c hc => (h'.mem c hc).elim .inl (h.mem c)⟩

theorem Memory.GrownBelow.mono {n k : Nat} {m o : Memory} (h : Memory.GrownBelow n m o) (hnk : n ≤ k) :
    Memory.GrownBelow k m o :=
  ⟨h.wf, fun c hc => (h.mem c hc).imp_left (Nat.lt_of_lt_of_le · hnk)⟩

theorem Memory.grownBelow_write (m : Memory) {n a : Nat} (v : Byte) (h : a < n) :
    Memory.GrownBelow n m (m.write a v) where
  wf hm := Memory.write_wf hm a v
  mem _ hc := (Memory.mem_write hc).imp_left fun he => by rw [he]; exact h

theorem Memory.grownBelow_writeSeq (m : Memory) {n a : Nat} (vs : List Byte) (h : a + vs.length ≤ n) :
    Memory.GrownBelow n m (m.writeSeq a vs) where
  wf hm := Memory.writeSeq_wf hm a vs
  mem _ hc := (Memory.mem_writeSeq hc).imp_left fun ⟨_, hlt⟩ => Nat.lt_of_lt_of_le hlt h

/-- A data space inside BUF_BYTES stays inside when it is written below an address within BUF_BYTES. -/
theorem Memory.GrownBelow.inRange {n bufBytes : Nat} {m o : Memory} (h : Memory.GrownBelow n m o)
    (hn : n ≤ bufBytes) (hm : m.inRange bufBytes) : o.inRange bufBytes :=
  fun c hc => (h.mem c hc).elim (Nat.lt_of_lt_of_le · hn) (hm c)

/-- The frame of the work of a command: the operands, CFG, STATUS and OLEN stay, and OBUF is written below address n
alone (spec/10_state.md R35). Nothing is said of RK, ST, CHAIN and the counters. -/
structure WorkFrame (n : Nat) (s t : State) : Prop where
  operands : OperandsKept s t
  cfg : t.cfg = s.cfg
  status : t.status = s.status
  olen : t.olen = s.olen
  obuf : Memory.GrownBelow n s.obuf t.obuf

theorem OperandsKept.trans {s t u : State} (h : OperandsKept s t) (h' : OperandsKept t u) : OperandsKept s u where
  key := h'.key.trans h.key
  iv := h'.iv.trans h.iv
  len := h'.len.trans h.len
  ibuf := h'.ibuf.trans h.ibuf
  bufBytes := h'.bufBytes.trans h.bufBytes
  bufDraw := h'.bufDraw.trans h.bufDraw
  inputs := h'.inputs.trans h.inputs
  answer := h'.answer.trans h.answer

theorem WorkFrame.trans {n : Nat} {s t u : State} (h : WorkFrame n s t) (h' : WorkFrame n t u) : WorkFrame n s u where
  operands := h.operands.trans h'.operands
  cfg := h'.cfg.trans h.cfg
  status := h'.status.trans h.status
  olen := h'.olen.trans h.olen
  obuf := h.obuf.trans h'.obuf

theorem WorkFrame.mono {n k : Nat} {s t : State} (h : WorkFrame n s t) (hnk : n ≤ k) : WorkFrame k s t :=
  { h with obuf := h.obuf.mono hnk }

/-- Whatever is written to CFG, STATUS, OLEN, RK, ST, CHAIN, the counters and OBUF, the operands stay. -/
theorem operandsKept_coreWrite (s : State) (cfg status olen : Reg32) (rk : Bytes 240) (st : StateMatrix)
    (chain : Block) (counters : Counters) (obuf : Memory) (draws : Nat) :
    OperandsKept s { s with
      cfg := cfg, status := status, olen := olen, rk := rk, st := st, chain := chain, counters := counters
      obuf := obuf, draws := draws } :=
  ⟨rfl, rfl, rfl, rfl, rfl, rfl, rfl, rfl⟩

/-- Writes of RK, ST, CHAIN and the counters, with the draws they take, are inside the frame. -/
theorem workFrame_hidden (n : Nat) (s : State) (rk : Bytes 240) (st : StateMatrix) (chain : Block)
    (counters : Counters) (draws : Nat) :
    WorkFrame n s { s with rk := rk, st := st, chain := chain, counters := counters, draws := draws } :=
  ⟨operandsKept_coreWrite s .., rfl, rfl, rfl, .refl n s.obuf⟩

/-- A block written at a, with a new CHAIN, is inside the frame when it ends by n. -/
theorem workFrame_blockWrite {n a : Nat} (v c : Block) (s : State) (h : a + 16 ≤ n) :
    WorkFrame n s (setChain c (memWrite a v s)) :=
  ⟨operandsKept_coreWrite s .., rfl, rfl, rfl,
    Memory.grownBelow_writeSeq s.obuf v.toList (by simpa using h)⟩

/-- A turn of the block loop: the turn for block b writes the block at 16·b of OBUF, and CHAIN (spec/44_modes.md
R163, R164). -/
def BlockTurn (turn : Nat → State → State) : Prop :=
  ∀ b s, ∃ v c, turn b s = setChain c (memWrite (16 * b) v s)

theorem plainTurn_blockWrite (out : Block → Block) (b : Nat) (s : State) :
    ∃ v c, plainTurn out b s = setChain c (memWrite (16 * b) v s) :=
  ⟨out (memRead s (16 * b)), s.chain, rfl⟩

theorem chainTurn_blockWrite (out newChain : Block → Block → Block) (b : Nat) (s : State) :
    ∃ v c, chainTurn out newChain b s = setChain c (memWrite (16 * b) v s) :=
  ⟨_, _, rfl⟩

theorem ecbEncTurn_blockTurn : BlockTurn ecbEncTurn := fun b s => plainTurn_blockWrite _ b s
theorem ecbDecTurn_blockTurn : BlockTurn ecbDecTurn := fun b s => plainTurn_blockWrite _ b s
theorem cbcEncTurn_blockTurn : BlockTurn cbcEncTurn := fun b s => chainTurn_blockWrite _ _ b s
theorem cbcDecTurn_blockTurn : BlockTurn cbcDecTurn := fun b s => chainTurn_blockWrite _ _ b s
theorem cfbEncTurn_blockTurn : BlockTurn cfbEncTurn := fun b s => chainTurn_blockWrite _ _ b s
theorem cfbDecTurn_blockTurn : BlockTurn cfbDecTurn := fun b s => chainTurn_blockWrite _ _ b s

/-- A loop of n turns writes OBUF below 16·n alone. -/
theorem forBlocks_workFrame {turn : Nat → State → State} (ht : BlockTurn turn) (n : Nat) (s : State) :
    WorkFrame (16 * n) s (forBlocks turn n s) := by
  induction n with
  | zero => exact workFrame_hidden 0 s ..
  | succ n ih =>
    obtain ⟨v, c, h⟩ := ht n (forBlocks turn n s)
    rw [forBlocks, h]
    exact (ih.mono (by omega)).trans (workFrame_blockWrite v c _ (by omega))

theorem blockCount_mul_le (s : State) : 16 * blockCount s ≤ s.len.toNat := Nat.mul_div_le s.len.toNat 16

theorem plainWork_workFrame {turn : Nat → State → State} (ht : BlockTurn turn) (s : State) :
    WorkFrame s.len.toNat s (plainWork turn s) :=
  have hexpand : WorkFrame s.len.toNat s (expandKey s) := workFrame_hidden _ s ..
  have hloop := (forBlocks_workFrame ht (blockCount s) (expandKey s)).mono (blockCount_mul_le s)
  (hexpand.trans hloop).trans (workFrame_hidden _ (forBlocks turn (blockCount s) (expandKey s)) ..)

theorem chainWork_workFrame {turn : Nat → State → State} (ht : BlockTurn turn) (s : State) :
    WorkFrame s.len.toNat s (chainWork turn s) :=
  have hexpand : WorkFrame s.len.toNat s (loadChain (expandKey s)) := workFrame_hidden _ s ..
  have hloop := (forBlocks_workFrame ht (blockCount s) (loadChain (expandKey s))).mono (blockCount_mul_le s)
  (hexpand.trans hloop).trans (workFrame_hidden _ (forBlocks turn (blockCount s) (loadChain (expandKey s))) ..)

/-! ## What a command can do -/

/-- How a command that needs a configuration ends: in an error entry and nothing else (spec/60_exceptions.md R186), or,
with LEN within the capacity where the command reads it, in its work and then STATUS and OLEN. -/
inductive CommandEnds (i : Instr) (s : State) : State → Prop
  | error (e : ErrorKind) : CommandEnds i s (raise e s)
  | success (olen : Reg32) {u : State} (fits : FitsBuffer i s) (work : WorkFrame (dataLength i s) s u) :
    CommandEnds i s (succeed olen u)

theorem execKexp_ends {s t : State} (h : execKexp s = .next t) : CommandEnds .kexp s t := by
  rcases execKexp_cases s with ⟨-, he⟩ | ⟨-, he⟩ <;> rw [he] at h <;> cases h
  · exact .error _
  · exact .success _ nofun (workFrame_hidden 0 s ..)

theorem blockCommand_ends {i : Instr} {f : Block → List Byte → Nat → Block} {s t : State} (hi : isMessage i = false)
    (hlen : dataLength i s = 16) (h : blockCommand f s = .next t) : CommandEnds i s t := by
  rcases blockCommand_cases f s with ⟨-, he⟩ | ⟨-, he⟩ <;> rw [he] at h <;> cases h
  · exact .error _
  · have hexpand : WorkFrame 16 s (expandKey s) := workFrame_hidden 16 s ..
    have hwrite := workFrame_blockWrite (f (memRead s 0) (schedule (expandKey s)) (cfgNr s)) s.chain (expandKey s)
      (Nat.le_refl 16)
    refine .success 16 (by simp [hi]) ?_
    rw [hlen]
    exact (hexpand.trans hwrite).trans (workFrame_hidden 16 _ ..)

theorem messageCommand_ends {i : Instr} {needsIV ivp : Bool} {work : State → State} {s t : State}
    (hlen : dataLength i s = s.len.toNat) (hwork : WorkFrame s.len.toNat s (work s))
    (h : messageCommand needsIV ivp work s = .next t) : CommandEnds i s t := by
  rcases messageCommand_cases needsIV ivp work s with
    ⟨-, he⟩ | ⟨-, -, he⟩ | ⟨-, -, -, -, he⟩ | ⟨-, -, -, hfits, he⟩ | ⟨-, -, -, -, he⟩ <;> rw [he] at h <;> cases h
  · exact .error _
  · exact .error _
  · exact .error _
  · exact .success _ (fun _ => hfits) (by rw [hlen]; exact hwork)

/-- Every command but CFG, each by the case law of its shape. -/
theorem exec_ends {i : Instr} {s t : State} (hi : needsConfig i = true) (h : exec i s = .next t) :
    CommandEnds i s t := by
  cases i with
  | cfg bits => cases hi
  | kexp => exact execKexp_ends h
  | encb => exact blockCommand_ends rfl rfl h
  | decb => exact blockCommand_ends rfl rfl h
  | encEcb ivp => exact messageCommand_ends rfl (plainWork_workFrame ecbEncTurn_blockTurn s) h
  | encCbc ivp => exact messageCommand_ends rfl (chainWork_workFrame cbcEncTurn_blockTurn s) h
  | encCfb ivp => exact messageCommand_ends rfl (chainWork_workFrame cfbEncTurn_blockTurn s) h
  | decEcb ivp => exact messageCommand_ends rfl (plainWork_workFrame ecbDecTurn_blockTurn s) h
  | decCbc ivp => exact messageCommand_ends rfl (chainWork_workFrame cbcDecTurn_blockTurn s) h
  | decCfb ivp => exact messageCommand_ends rfl (chainWork_workFrame cfbDecTurn_blockTurn s) h

/-- The configurations CFG writes are legal (spec/42_key_expander.md R111, R112). -/
theorem cfgWord_legal {bits nk nr : Nat} (h : deriveConfig bits = some (nk, nr)) : CfgLegal (cfgWord bits nk nr) := by
  unfold deriveConfig at h
  split at h
  · next hb => cases h; subst hb; decide
  · split at h
    · next hb => cases h; subst hb; decide
    · split at h
      · next hb => cases h; subst hb; decide
      · cases h

/-- CFG ends in a legal configuration, or in an error with CFG cleared. -/
theorem execCfg_next_cases {bits : Nat} {s t : State} (h : execCfg bits s = .next t) :
    (∃ v, CfgLegal v ∧ t = succeed 0 (setCfg v s)) ∨ t = raise .invalidKeyLength (setCfg 0 s) := by
  rcases execCfg_cases bits s with ⟨nk, nr, hd, he⟩ | ⟨-, he⟩ <;> rw [he] at h <;> cases h
  · exact .inl ⟨_, cfgWord_legal hd, rfl⟩
  · exact .inr rfl

theorem CommandEnds.operandsKept {i : Instr} {s t : State} (h : CommandEnds i s t) : OperandsKept s t := by
  cases h with
  | error e => exact operandsKept_coreWrite s ..
  | @success olen u fits work => exact work.operands.trans (operandsKept_coreWrite u ..)

/-- No command writes its operands or the parameter BUF_BYTES. -/
theorem exec_operandsKept {i : Instr} {s t : State} (h : exec i s = .next t) : OperandsKept s t := by
  cases hi : needsConfig i with
  | true => exact (exec_ends hi h).operandsKept
  | false =>
    cases i with
    | cfg bits =>
      rcases execCfg_next_cases h with ⟨v, -, rfl⟩ | rfl
      · exact operandsKept_coreWrite s ..
      · exact operandsKept_coreWrite s ..
    | _ => cases hi

/-! ## What a transaction and a step can do -/

/-- A command word runs its command, or raises IllegalCommand. -/
theorem hostCommand_cases (w : Reg32) (s : State) :
    (∃ i, decode w = .ok i ∧ hostCommand w s = exec i s) ∨
    (∃ e, decode w = .error e ∧ hostCommand w s = .next (raise .illegalCommand s)) := by
  unfold hostCommand
  cases hw : decode w with
  | ok i => exact .inl ⟨i, rfl, rfl⟩
  | error e => exact .inr ⟨e, rfl, rfl⟩

/-- A host transaction that is answered: a command; a write of KEY, IV or LEN or a read, whose value stands in
`answer`; or a write of a byte of IBUF inside BUF_BYTES. -/
theorem transact_next_cases {tr : Transaction} {s t : State} (h : transact tr s = .next t) :
    (∃ w, tr = .command w ∧ hostCommand w s = .next t) ∨
    (∃ key iv len answer, t = { s with key := key, iv := iv, len := len, answer := answer }) ∨
    (∃ k v, k < s.bufBytes ∧ t = { s with ibuf := s.ibuf.write k v }) := by
  cases tr with
  | command w => exact .inl ⟨w, rfl, h⟩
  | readReg r => cases h; exact .inr (.inl ⟨_, _, _, _, rfl⟩)
  | readByte space k =>
    simp only [transact] at h
    split at h
    · cases h; exact .inr (.inl ⟨_, _, _, _, rfl⟩)
    · cases h
  | writeReg r v =>
    cases r with
    | len => cases h; exact .inr (.inl ⟨_, _, _, _, rfl⟩)
    | _ => cases h
  | writeByte space k v =>
    simp only [transact, hostWriteByte] at h
    split at h
    · split at h
      · cases h; exact .inr (.inl ⟨_, _, _, _, rfl⟩)
      · cases h
    · split at h
      · cases h; exact .inr (.inl ⟨_, _, _, _, rfl⟩)
      · cases h
    · split at h
      · next hk => cases h; exact .inr (.inr ⟨k, v, hk, rfl⟩)
      · cases h
    all_goals cases h

/-- A step that is answered: idle, a reset, or a host transaction, with its input taken off the queue. -/
theorem step_next_cases {s t : State} (h : step s = .next t) :
    (s.inputs = [] ∧ t = s) ∨
    (∃ rest, s.inputs = .reset :: rest ∧ t = applyReset { s with inputs := rest }) ∨
    (∃ tr rest, s.inputs = .transaction tr :: rest ∧ transact tr { s with inputs := rest } = .next t) := by
  unfold step serveNext at h
  split at h
  · next hin => cases h; exact .inl ⟨hin, rfl⟩
  · next i rest hin =>
    cases i with
    | reset => cases h; exact .inr (.inl ⟨rest, hin, rfl⟩)
    | transaction tr => exact .inr (.inr ⟨tr, rest, hin, h⟩)

end Sys2Proof.Machine
end

