-- ==== Sys2Proof/Proofs/Scope.lean ====
section
/-! PROOFS. The statements of spec/00_scope.md: the invariant of the machine (O57), and that BUF_BYTES is a fixed
parameter (O50) on which nothing but the capacity depends (O51). -/

namespace Sys2Proof.Machine

/-! ## The invariant of the machine -/

/-- The invariant says nothing of KEY, IV, LEN, the queue of the host and its last answer. -/
theorem MachineInv.hostFields {s : State} (h : MachineInv s) (key : Bytes 32) (iv : Bytes 16) (len : Reg32)
    (inputs : List Input) (answer : Option Answer) :
    MachineInv { s with key := key, iv := iv, len := len, inputs := inputs, answer := answer } :=
  { h with }

theorem errorCode_le (e : ErrorKind) : ((errorCode e).setWidth 32).toNat ≤ 4 := by cases e <;> decide

theorem MachineInv.raise {s : State} (h : MachineInv s) (e : ErrorKind) : MachineInv (raise e s) :=
  { h with
    status_legal := errorCode_le e
    error_olen := fun _ => rfl }

theorem MachineInv.succeed {s : State} (h : MachineInv s) (n : Reg32) : MachineInv (succeed n s) :=
  { h with
    status_legal := by simp
    error_olen := fun hs => absurd rfl hs }

theorem MachineInv.setCfg {s : State} (h : MachineInv s) {v : Reg32} (hv : CfgLegal v) : MachineInv (setCfg v s) :=
  { h with cfg_legal := hv }

theorem MachineInv.applyReset {s : State} (h : MachineInv s) : MachineInv (applyReset s) where
  cfg_legal := .inl rfl
  status_legal := by simp
  error_olen _ := rfl
  ibuf_wf := Memory.nil_wf
  obuf_wf := Memory.nil_wf
  bufBytes_legal := h.bufBytes_legal
  ibuf_range := nofun
  obuf_range := nofun

theorem MachineInv.writeIbuf {s : State} (h : MachineInv s) {k : Nat} (v : Byte) (hk : k < s.bufBytes) :
    MachineInv { s with ibuf := s.ibuf.write k v } :=
  have hgrown := Memory.grownBelow_write s.ibuf v hk
  { h with
    ibuf_wf := hgrown.wf h.ibuf_wf
    ibuf_range := hgrown.inRange (Nat.le_refl _) h.ibuf_range }

/-- Work that writes OBUF inside BUF_BYTES keeps the invariant. -/
theorem MachineInv.work {s t : State} (h : MachineInv s) {n : Nat} (hn : n ≤ s.bufBytes) (hw : WorkFrame n s t) :
    MachineInv t where
  cfg_legal := by rw [hw.cfg]; exact h.cfg_legal
  status_legal := by rw [hw.status]; exact h.status_legal
  error_olen := by rw [hw.status, hw.olen]; exact h.error_olen
  ibuf_wf := by rw [hw.operands.ibuf]; exact h.ibuf_wf
  obuf_wf := hw.obuf.wf h.obuf_wf
  bufBytes_legal := by rw [hw.operands.bufBytes]; exact h.bufBytes_legal
  ibuf_range := by rw [hw.operands.ibuf, hw.operands.bufBytes]; exact h.ibuf_range
  obuf_range := by rw [hw.operands.bufBytes]; exact hw.obuf.inRange hn h.obuf_range

/-- What a command writes of OBUF is inside BUF_BYTES: one block, which every core holds, or LEN bytes. -/
theorem dataLength_le_bufBytes {i : Instr} {s : State} (hfits : FitsBuffer i s) (hbuf : 16 ≤ s.bufBytes) :
    dataLength i s ≤ s.bufBytes := by
  cases i with
  | cfg | kexp => exact Nat.zero_le _
  | encb | decb => exact hbuf
  | encEcb | encCbc | encCfb | decEcb | decCbc | decCfb => exact hfits rfl

theorem CommandEnds.machineInv {i : Instr} {s t : State} (h : CommandEnds i s t) (hinv : MachineInv s) :
    MachineInv t := by
  cases h with
  | error e => exact hinv.raise e
  | success olen fits work =>
    exact (hinv.work (dataLength_le_bufBytes fits hinv.bufBytes_legal.1) work).succeed olen

theorem exec_machineInv {i : Instr} {s t : State} (hinv : MachineInv s) (h : exec i s = .next t) : MachineInv t := by
  cases hi : needsConfig i with
  | true => exact (exec_ends hi h).machineInv hinv
  | false =>
    cases i with
    | cfg bits =>
      rcases execCfg_next_cases h with ⟨v, hv, rfl⟩ | rfl
      · exact (hinv.setCfg hv).succeed 0
      · exact (hinv.setCfg (.inl rfl)).raise _
    | _ => cases hi

theorem transact_machineInv {tr : Transaction} {s t : State} (hinv : MachineInv s) (h : transact tr s = .next t) :
    MachineInv t := by
  rcases transact_next_cases h with ⟨w, -, hw⟩ | ⟨key, iv, len, answer, rfl⟩ | ⟨k, v, hk, rfl⟩
  · rcases hostCommand_cases w s with ⟨i, -, he⟩ | ⟨-, -, he⟩ <;> rw [he] at hw
    · exact exec_machineInv hinv hw
    · cases hw
      exact hinv.raise _
  · exact hinv.hostFields key iv len s.inputs answer
  · exact hinv.writeIbuf v hk

/-- Settles O57: the invariant through the case laws of the step, the transaction and the command. -/
theorem invariantIsKeptByEveryStep : Obligations.InvariantIsKeptByEveryStep := by
  intro s t hinv h
  rcases step_next_cases h with ⟨-, rfl⟩ | ⟨rest, -, rfl⟩ | ⟨tr, rest, -, htr⟩
  · exact hinv
  · exact (hinv.hostFields s.key s.iv s.len rest s.answer).applyReset
  · exact transact_machineInv (hinv.hostFields s.key s.iv s.len rest s.answer) htr

/-! ## The parameter BUF_BYTES -/

theorem transact_bufBytes {tr : Transaction} {s t : State} (h : transact tr s = .next t) :
    t.bufBytes = s.bufBytes := by
  rcases transact_next_cases h with ⟨w, -, hw⟩ | ⟨key, iv, len, answer, rfl⟩ | ⟨k, v, -, rfl⟩
  · rcases hostCommand_cases w s with ⟨i, -, he⟩ | ⟨-, -, he⟩ <;> rw [he] at hw
    · exact (exec_operandsKept hw).bufBytes
    · cases hw
      exact raise_bufBytes s _
  · rfl
  · rfl

/-- Settles O50: a command keeps the parameter with its operands, and no other step writes it. -/
theorem bufBytesIsFixed : Obligations.BufBytesIsFixed := by
  intro s t h
  rcases step_next_cases h with ⟨-, rfl⟩ | ⟨rest, -, rfl⟩ | ⟨tr, rest, -, htr⟩
  · rfl
  · exact applyReset_bufBytes _
  · exact (transact_bufBytes htr :)

/-- The same state on a core of another BUF_BYTES. -/
def onBufBytes (m : Nat) (s : State) : State := { s with bufBytes := m }

/-- A function of the state that does not look at BUF_BYTES. -/
def BufBytesBlind (f : State → State) : Prop := ∀ m s, f (onBufBytes m s) = onBufBytes m (f s)

theorem plainTurn_onBufBytes (out : Block → Block) (b m : Nat) (s : State) :
    plainTurn out b (onBufBytes m s) = onBufBytes m (plainTurn out b s) := rfl

theorem chainTurn_onBufBytes (out newChain : Block → Block → Block) (b m : Nat) (s : State) :
    chainTurn out newChain b (onBufBytes m s) = onBufBytes m (chainTurn out newChain b s) := rfl

theorem ecbEncTurn_bufBytesBlind (b : Nat) : BufBytesBlind (ecbEncTurn b) :=
  fun m s => plainTurn_onBufBytes _ b m s
theorem ecbDecTurn_bufBytesBlind (b : Nat) : BufBytesBlind (ecbDecTurn b) :=
  fun m s => plainTurn_onBufBytes _ b m s
theorem cbcEncTurn_bufBytesBlind (b : Nat) : BufBytesBlind (cbcEncTurn b) :=
  fun m s => chainTurn_onBufBytes _ _ b m s
theorem cbcDecTurn_bufBytesBlind (b : Nat) : BufBytesBlind (cbcDecTurn b) :=
  fun m s => chainTurn_onBufBytes _ _ b m s
theorem cfbEncTurn_bufBytesBlind (b : Nat) : BufBytesBlind (cfbEncTurn b) :=
  fun m s => chainTurn_onBufBytes _ _ b m s
theorem cfbDecTurn_bufBytesBlind (b : Nat) : BufBytesBlind (cfbDecTurn b) :=
  fun m s => chainTurn_onBufBytes _ _ b m s

theorem forBlocks_bufBytesBlind {turn : Nat → State → State} (ht : ∀ b, BufBytesBlind (turn b)) (n : Nat) :
    BufBytesBlind (forBlocks turn n) := by
  intro m s
  induction n with
  | zero => rfl
  | succ n ih => rw [forBlocks, ih, ht n m, forBlocks]

theorem plainWork_bufBytesBlind {turn : Nat → State → State} (ht : ∀ b, BufBytesBlind (turn b)) :
    BufBytesBlind (plainWork turn) := fun m s =>
  congrArg (leaveCounters ∘ leaveSt) (forBlocks_bufBytesBlind ht (blockCount s) m (expandKey s))

theorem chainWork_bufBytesBlind {turn : Nat → State → State} (ht : ∀ b, BufBytesBlind (turn b)) :
    BufBytesBlind (chainWork turn) := fun m s =>
  congrArg (leaveCounters ∘ leaveSt ∘ leaveChain)
    (forBlocks_bufBytesBlind ht (blockCount s) m (loadChain (expandKey s)))

theorem configCheck_onBufBytes (m : Nat) (s : State) : configCheck (onBufBytes m s) = configCheck s := rfl

theorem msgChecks_onBufBytes (needsIV ivp : Bool) (m : Nat) (s : State) :
    msgChecks needsIV ivp (onBufBytes m s) = msgChecks needsIV ivp s := rfl

/-- A meaning that completes alike on s and on the core with BUF_BYTES m: nothing but BUF_BYTES differs after it. -/
def CompletesAlike (m : Nat) (s : State) (run : State → Host.Outcome State Fault Refusal) : Prop :=
  ∃ t, run s = .next t ∧ run (onBufBytes m s) = .next (onBufBytes m t)

theorem execCfg_completesAlike (bits m : Nat) (s : State) : CompletesAlike m s (execCfg bits) := by
  unfold CompletesAlike execCfg
  cases deriveConfig bits with
  | none => exact ⟨_, rfl, rfl⟩
  | some p => exact ⟨_, rfl, rfl⟩

theorem execKexp_completesAlike (m : Nat) (s : State) : CompletesAlike m s execKexp := by
  unfold CompletesAlike execKexp
  rw [configCheck_onBufBytes]
  cases configCheck s with
  | some e => exact ⟨_, rfl, rfl⟩
  | none => exact ⟨_, rfl, rfl⟩

theorem blockCommand_completesAlike (f : Block → List Byte → Nat → Block) (m : Nat) (s : State) :
    CompletesAlike m s (blockCommand f) := by
  unfold CompletesAlike blockCommand
  rw [configCheck_onBufBytes]
  cases configCheck s with
  | some e => exact ⟨_, rfl, rfl⟩
  | none => exact ⟨_, rfl, rfl⟩

/-- A message command looks at BUF_BYTES in the comparison with LEN alone. -/
theorem messageCommand_completesAlike {work : State → State} (hwork : BufBytesBlind work) (needsIV ivp : Bool)
    {m : Nat} {s : State} (hs : s.len.toNat ≤ s.bufBytes) (hm : s.len.toNat ≤ m) :
    CompletesAlike m s (messageCommand needsIV ivp work) := by
  unfold CompletesAlike messageCommand
  rw [msgChecks_onBufBytes]
  cases msgChecks needsIV ivp s with
  | some e => exact ⟨_, rfl, rfl⟩
  | none => exact ⟨_, if_pos hs, (if_pos hm).trans (by rw [hwork m s]; rfl)⟩

theorem exec_completesAlike {i : Instr} {m : Nat} {s : State} (hs : FitsBuffer i s)
    (hm : FitsBuffer i (onBufBytes m s)) : CompletesAlike m s (exec i) := by
  cases i with
  | cfg bits => exact execCfg_completesAlike bits m s
  | kexp => exact execKexp_completesAlike m s
  | encb => exact blockCommand_completesAlike cipher m s
  | decb => exact blockCommand_completesAlike invCipher m s
  | encEcb ivp =>
    exact messageCommand_completesAlike (plainWork_bufBytesBlind ecbEncTurn_bufBytesBlind) false ivp (hs rfl) (hm rfl)
  | encCbc ivp =>
    exact messageCommand_completesAlike (chainWork_bufBytesBlind cbcEncTurn_bufBytesBlind) true ivp (hs rfl) (hm rfl)
  | encCfb ivp =>
    exact messageCommand_completesAlike (chainWork_bufBytesBlind cfbEncTurn_bufBytesBlind) true ivp (hs rfl) (hm rfl)
  | decEcb ivp =>
    exact messageCommand_completesAlike (plainWork_bufBytesBlind ecbDecTurn_bufBytesBlind) false ivp (hs rfl) (hm rfl)
  | decCbc ivp =>
    exact messageCommand_completesAlike (chainWork_bufBytesBlind cbcDecTurn_bufBytesBlind) true ivp (hs rfl) (hm rfl)
  | decCfb ivp =>
    exact messageCommand_completesAlike (chainWork_bufBytesBlind cfbDecTurn_bufBytesBlind) true ivp (hs rfl) (hm rfl)

/-- Settles O51: BUF_BYTES passes through every command, and in this model even ST, CHAIN and the counters agree. -/
theorem bufBytesMattersOnlyForTheCapacity : Obligations.BufBytesMattersOnlyForTheCapacity := by
  intro i s m hs hm
  obtain ⟨t, ht, htm⟩ := exec_completesAlike hs hm
  exact ⟨t, onBufBytes m t, ht, htm, rfl⟩

end Sys2Proof.Machine
end

