-- ==== Sys2Proof/Proofs/Noninterference.lean ====
section
/-! PROOFS. What the outcome of a command depends on (spec/10_state.md R34, R35): two states that agree on what the
command reads are run side by side, and the agreement is carried through the expansion, the block loop and the end of
the command. -/

namespace Sys2Proof.Machine

/-- Two states of one core that agree on all that the command reads: CFG, LEN, the key of the configuration, the IV
where the mode requires one, and the bytes of IBUF it reads. -/
structure ReadsAlike (i : Instr) (s s' : State) : Prop where
  bufBytes : s'.bufBytes = s.bufBytes
  cfg : s'.cfg = s.cfg
  len : s'.len = s.len
  key : keyOperand s' = keyOperand s
  iv : requiresIV i = true → s'.iv = s.iv
  ibuf : ∀ a, a < dataLength i s → ibufByte s' a = ibufByte s a

/-- Two runs of a command from s end alike: CFG, STATUS and OLEN agree, and on success the schedule in RK and the bytes
of OBUF the command writes. -/
structure ResultsAlike (i : Instr) (s t t' : State) : Prop where
  cfg : t'.cfg = t.cfg
  status : t'.status = t.status
  olen : t'.olen = t.olen
  rk : t.status = 0 → needsConfig i = true →
    firstBytes t'.rk (16 * (cfgNr s + 1)) = firstBytes t.rk (16 * (cfgNr s + 1))
  obuf : t.status = 0 → ∀ a, a < dataLength i s → obufByte t' a = obufByte t a

/-- A meaning that completes on both states and ends alike. -/
def EndsAlike (i : Instr) (s s' : State) (run : State → Host.Outcome State Fault Refusal) : Prop :=
  ∃ t t', run s = .next t ∧ run s' = .next t' ∧ ResultsAlike i s t t'

/-- Two states inside the work of a command that agree on what the rest of the work reads (CFG, the schedule in RK, IBUF
below `reads`, and CHAIN where the mode uses it) and in OBUF below `written`. -/
structure WorkAlike (usesChain : Bool) (reads written : Nat) (u u' : State) : Prop where
  cfg : u'.cfg = u.cfg
  schedule : schedule u' = schedule u
  chain : usesChain = true → u'.chain = u.chain
  ibuf : ∀ a, a < reads → ibufByte u' a = ibufByte u a
  obuf : ∀ a, a < written → obufByte u' a = obufByte u a

section
variable {i : Instr} {s s' : State} (h : ReadsAlike i s s')
include h

theorem ReadsAlike.cfgValid : cfgValid s' = cfgValid s := by rw [Machine.cfgValid, h.cfg, Machine.cfgValid]

theorem ReadsAlike.configCheck : configCheck s' = configCheck s := by
  rw [Machine.configCheck, h.cfgValid, Machine.configCheck]

theorem ReadsAlike.msgChecks (needsIV ivp : Bool) : msgChecks needsIV ivp s' = msgChecks needsIV ivp s := by
  rw [Machine.msgChecks, h.cfgValid, h.len, Machine.msgChecks]

theorem ReadsAlike.blockCount : blockCount s' = blockCount s := by rw [Machine.blockCount, h.len, Machine.blockCount]

end

/-! ## The ends of a command -/

theorem errorCode_ne_zero (e : ErrorKind) : (errorCode e).setWidth 32 ≠ (0 : Reg32) := by cases e <;> decide

/-- Error entries of the same kind end alike. -/
theorem raise_resultsAlike (i : Instr) (e : ErrorKind) (s : State) {u u' : State} (h : u'.cfg = u.cfg) :
    ResultsAlike i s (raise e u) (raise e u') :=
  ⟨h, rfl, rfl, fun hs => absurd hs (errorCode_ne_zero e), fun hs => absurd hs (errorCode_ne_zero e)⟩

/-- Successful ends with the same OLEN end alike when the work went alike and kept CFG. -/
theorem WorkAlike.resultsAlike {usesChain : Bool} {reads written : Nat} {i : Instr} {s u u' : State}
    (h : WorkAlike usesChain reads written u u') (hwritten : written = dataLength i s) (hcfg : u.cfg = s.cfg)
    (n : Reg32) :
    ResultsAlike i s (succeed n u) (succeed n u') where
  cfg := h.cfg
  status := rfl
  olen := rfl
  rk _ _ := by
    have hs := h.schedule
    unfold Machine.schedule at hs
    rwa [cfgNr_congr h.cfg, cfgNr_congr hcfg] at hs
  obuf _ a ha := h.obuf a (by rwa [hwritten])

/-! ## The work of a command -/

/-- The expansion leaves the same schedule, whatever RK held. -/
theorem expandKey_workAlike {i : Instr} {s s' : State} (h : ReadsAlike i s s') (hconf : Configured s) :
    WorkAlike false (dataLength i s) 0 (expandKey s) (expandKey s') where
  cfg := h.cfg
  schedule := by
    have hconf' : Configured s' := by unfold Configured; rwa [h.cfg]
    rw [schedule_expandKey hconf, schedule_expandKey hconf', keySchedule, keySchedule, h.key, cfgNk_congr h.cfg,
      cfgNr_congr h.cfg]
  chain := nofun
  ibuf := h.ibuf
  obuf _ ha := absurd ha (Nat.not_lt_zero _)

section
variable {usesChain : Bool} {reads written : Nat} {u u' : State}

/-- CHAIN <- IV makes CHAIN agree where the IVs do. -/
theorem WorkAlike.loadChain (h : WorkAlike usesChain reads written u u') (hiv : u'.iv = u.iv) :
    WorkAlike true reads written (loadChain u) (loadChain u') :=
  { h with chain := fun _ => hiv }

theorem WorkAlike.leaveCounters (h : WorkAlike usesChain reads written u u') :
    WorkAlike usesChain reads written (leaveCounters u) (leaveCounters u') :=
  { h with }

theorem WorkAlike.leaveSt (h : WorkAlike usesChain reads written u u') :
    WorkAlike usesChain reads written (leaveSt u) (leaveSt u') :=
  { h with }

/-- CHAIN may be left unspecified once nothing reads it any more. -/
theorem WorkAlike.leaveChain (h : WorkAlike usesChain reads written u u') :
    WorkAlike false reads written (leaveChain u) (leaveChain u') :=
  { h with chain := nofun }

/-- IBUF read at a block below `reads` gives the same block. -/
theorem WorkAlike.memRead (h : WorkAlike usesChain reads written u u') {a : Nat} (ha : a + 16 ≤ reads) :
    memRead u' a = memRead u a := by
  apply Vector.ext
  intro k hk
  rw [memRead_getElem _ _ _ hk, memRead_getElem _ _ _ hk, h.ibuf _ (by omega)]

/-- The same block written where the agreement of OBUF ends carries it one block further. -/
theorem WorkAlike.blockWrite (h : WorkAlike usesChain reads written u u') (v : Block) {c c' : Block}
    (hc : usesChain = true → c' = c) :
    WorkAlike usesChain reads (written + 16) (setChain c (memWrite written v u)) (setChain c' (memWrite written v u')) :=
  { h with
    chain := hc
    obuf := fun a ha => by
      show obufByte (memWrite written v u') a = obufByte (memWrite written v u) a
      rw [obufByte_memWrite, obufByte_memWrite]
      split
      · rfl
      · exact h.obuf a (by omega) }

/-- A turn without chaining, through the same block function. -/
theorem WorkAlike.plainTurn {b : Nat} (h : WorkAlike usesChain reads (16 * b) u u') (hb : 16 * b + 16 ≤ reads)
    {out out' : Block → Block} (hout : out' = out) :
    WorkAlike usesChain reads (16 * b + 16) (plainTurn out b u) (plainTurn out' b u') := by
  unfold Machine.plainTurn
  rw [hout, h.memRead hb]
  exact h.blockWrite _ h.chain

/-- A chained turn, through the same function of input block and CHAIN. -/
theorem WorkAlike.chainTurn {b : Nat} (h : WorkAlike true reads (16 * b) u u') (hb : 16 * b + 16 ≤ reads)
    {out out' : Block → Block → Block} (hout : out' = out) (newChain : Block → Block → Block) :
    WorkAlike true reads (16 * b + 16) (chainTurn out newChain b u) (chainTurn out' newChain b u') := by
  unfold Machine.chainTurn
  rw [hout, h.memRead hb, h.chain rfl]
  exact h.blockWrite _ fun _ => rfl

end

/-- A turn of the block loop that carries the agreement one block further. -/
def TurnAlike (usesChain : Bool) (turn : Nat → State → State) : Prop :=
  ∀ reads b u u', 16 * b + 16 ≤ reads → WorkAlike usesChain reads (16 * b) u u' →
    WorkAlike usesChain reads (16 * b + 16) (turn b u) (turn b u')

theorem ecbEncTurn_turnAlike : TurnAlike false ecbEncTurn := fun _ _ _ _ hb h =>
  h.plainTurn hb (by rw [h.schedule, cfgNr_congr h.cfg])
theorem ecbDecTurn_turnAlike : TurnAlike false ecbDecTurn := fun _ _ _ _ hb h =>
  h.plainTurn hb (by rw [h.schedule, cfgNr_congr h.cfg])
theorem cbcEncTurn_turnAlike : TurnAlike true cbcEncTurn := fun _ _ _ _ hb h =>
  h.chainTurn hb (by rw [h.schedule, cfgNr_congr h.cfg]) _
theorem cbcDecTurn_turnAlike : TurnAlike true cbcDecTurn := fun _ _ _ _ hb h =>
  h.chainTurn hb (by rw [h.schedule, cfgNr_congr h.cfg]) _
theorem cfbEncTurn_turnAlike : TurnAlike true cfbEncTurn := fun _ _ _ _ hb h =>
  h.chainTurn hb (by rw [h.schedule, cfgNr_congr h.cfg]) _
theorem cfbDecTurn_turnAlike : TurnAlike true cfbDecTurn := fun _ _ _ _ hb h =>
  h.chainTurn hb (by rw [h.schedule, cfgNr_congr h.cfg]) _

/-- The loop carries the agreement over as many blocks as it has turns. -/
theorem forBlocks_workAlike {usesChain : Bool} {turn : Nat → State → State} (ht : TurnAlike usesChain turn)
    {reads : Nat} {u u' : State} (h : WorkAlike usesChain reads 0 u u') (n : Nat) (hn : 16 * n ≤ reads) :
    WorkAlike usesChain reads (16 * n) (forBlocks turn n u) (forBlocks turn n u') := by
  induction n with
  | zero => exact h
  | succ n ih => exact ht reads n _ _ hn (ih (by omega))

section
variable {i : Instr} {s s' : State} {turn : Nat → State → State} (h : ReadsAlike i s s') (hconf : Configured s)
  (hdata : dataLength i s = s.len.toNat) (hlen : s.len.toNat % 16 = 0)
include h hconf hdata hlen

theorem plainWork_workAlike (ht : TurnAlike false turn) :
    WorkAlike false (dataLength i s) (dataLength i s) (plainWork turn s) (plainWork turn s') := by
  have hblocks : 16 * blockCount s = dataLength i s := (blockCount_mul hlen).trans hdata.symm
  have hloop := forBlocks_workAlike ht (expandKey_workAlike h hconf) (blockCount s) hblocks.le
  rw [hblocks] at hloop
  rw [plainWork, plainWork, h.blockCount]
  exact hloop.leaveSt.leaveCounters

theorem chainWork_workAlike (hi : requiresIV i = true) (ht : TurnAlike true turn) :
    WorkAlike false (dataLength i s) (dataLength i s) (chainWork turn s) (chainWork turn s') := by
  have hblocks : 16 * blockCount s = dataLength i s := (blockCount_mul hlen).trans hdata.symm
  have hstart := (expandKey_workAlike h hconf).loadChain (h.iv hi)
  have hloop := forBlocks_workAlike ht hstart (blockCount s) hblocks.le
  rw [hblocks] at hloop
  rw [chainWork, chainWork, h.blockCount]
  exact hloop.leaveChain.leaveSt.leaveCounters

end

/-! ## The commands -/

/-- CFG ends by its immediate alone, whatever the states hold. -/
theorem execCfg_endsAlike (bits : Nat) (s s' : State) : EndsAlike (.cfg bits) s s' (execCfg bits) := by
  unfold EndsAlike execCfg
  cases deriveConfig bits with
  | none => exact ⟨_, _, rfl, rfl, raise_resultsAlike (.cfg bits) .invalidKeyLength s rfl⟩
  | some p => exact ⟨_, _, rfl, rfl, rfl, rfl, rfl, nofun, nofun⟩

section
variable {i : Instr} {s s' : State} (h : ReadsAlike i s s') (hlegal : CfgLegal s.cfg)
include h hlegal

theorem execKexp_endsAlike (hdata : dataLength i s = 0) : EndsAlike i s s' execKexp := by
  unfold EndsAlike execKexp
  rw [h.configCheck]
  rcases configCheck_cases s with ⟨-, hc⟩ | ⟨hv, hc⟩ <;> rw [hc]
  · exact ⟨_, _, rfl, rfl, raise_resultsAlike i _ s h.cfg⟩
  · have hwork := expandKey_workAlike h (hlegal.valid_iff.1 hv)
    rw [cfgNr_congr h.cfg]
    exact ⟨_, _, rfl, rfl, hwork.leaveCounters.resultsAlike hdata.symm rfl _⟩

/-- ENCB and DECB are the first turn of a loop without chaining. -/
theorem blockCommand_endsAlike (f : Block → List Byte → Nat → Block) (hdata : dataLength i s = 16) :
    EndsAlike i s s' (blockCommand f) := by
  unfold EndsAlike blockCommand
  rw [h.configCheck]
  rcases configCheck_cases s with ⟨-, hc⟩ | ⟨hv, hc⟩ <;> rw [hc]
  · exact ⟨_, _, rfl, rfl, raise_resultsAlike i _ s h.cfg⟩
  · have hwork := expandKey_workAlike h (hlegal.valid_iff.1 hv)
    have hturn := hwork.plainTurn (b := 0) hdata.ge
      (out := fun x => f x (schedule (expandKey s)) (cfgNr (expandKey s)))
      (out' := fun x => f x (schedule (expandKey s')) (cfgNr (expandKey s')))
      (by rw [hwork.schedule, cfgNr_congr hwork.cfg])
    exact ⟨_, _, rfl, rfl, hturn.leaveSt.leaveCounters.resultsAlike hdata.symm rfl _⟩

/-- A message command ends alike when its work, once the checks have passed, goes alike. -/
theorem messageCommand_endsAlike {needsIV ivp : Bool} {work : State → State} (hfits : s.len.toNat ≤ s.bufBytes)
    (hcfg : (work s).cfg = s.cfg)
    (hwork : Configured s → s.len.toNat % 16 = 0 →
      WorkAlike false (dataLength i s) (dataLength i s) (work s) (work s')) :
    EndsAlike i s s' (messageCommand needsIV ivp work) := by
  unfold EndsAlike messageCommand
  rw [h.msgChecks, h.len, h.bufBytes]
  rcases msgChecks_cases needsIV ivp s with ⟨-, hc⟩ | ⟨-, -, hc⟩ | ⟨-, -, -, -, hc⟩ | ⟨hv, hlen, -, hc⟩ <;> rw [hc]
  · exact ⟨_, _, rfl, rfl, raise_resultsAlike i _ s h.cfg⟩
  · exact ⟨_, _, rfl, rfl, raise_resultsAlike i _ s h.cfg⟩
  · exact ⟨_, _, rfl, rfl, raise_resultsAlike i _ s h.cfg⟩
  · have hres := (hwork (hlegal.valid_iff.1 hv) hlen).resultsAlike rfl hcfg s.len
    exact ⟨_, _, if_pos hfits, if_pos hfits, hres⟩

theorem plainCommand_endsAlike {needsIV ivp : Bool} {turn : Nat → State → State}
    (hdata : dataLength i s = s.len.toNat) (hfits : s.len.toNat ≤ s.bufBytes) (hblock : BlockTurn turn)
    (ht : TurnAlike false turn) : EndsAlike i s s' (messageCommand needsIV ivp (plainWork turn)) :=
  messageCommand_endsAlike h hlegal hfits (plainWork_workFrame hblock s).cfg fun hconf hlen =>
    plainWork_workAlike h hconf hdata hlen ht

theorem chainCommand_endsAlike {needsIV ivp : Bool} {turn : Nat → State → State}
    (hdata : dataLength i s = s.len.toNat) (hfits : s.len.toNat ≤ s.bufBytes) (hi : requiresIV i = true)
    (hblock : BlockTurn turn) (ht : TurnAlike true turn) :
    EndsAlike i s s' (messageCommand needsIV ivp (chainWork turn)) :=
  messageCommand_endsAlike h hlegal hfits (chainWork_workFrame hblock s).cfg fun hconf hlen =>
    chainWork_workAlike h hconf hdata hlen hi ht

/-- Every command, each by the law of its shape. -/
theorem exec_endsAlike (hfits : FitsBuffer i s) : EndsAlike i s s' (exec i) := by
  cases i with
  | cfg bits => exact execCfg_endsAlike bits s s'
  | kexp => exact execKexp_endsAlike h hlegal rfl
  | encb => exact blockCommand_endsAlike h hlegal cipher rfl
  | decb => exact blockCommand_endsAlike h hlegal invCipher rfl
  | encEcb ivp => exact plainCommand_endsAlike h hlegal rfl (hfits rfl) ecbEncTurn_blockTurn ecbEncTurn_turnAlike
  | encCbc ivp => exact chainCommand_endsAlike h hlegal rfl (hfits rfl) rfl cbcEncTurn_blockTurn cbcEncTurn_turnAlike
  | encCfb ivp => exact chainCommand_endsAlike h hlegal rfl (hfits rfl) rfl cfbEncTurn_blockTurn cfbEncTurn_turnAlike
  | decEcb ivp => exact plainCommand_endsAlike h hlegal rfl (hfits rfl) ecbDecTurn_blockTurn ecbDecTurn_turnAlike
  | decCbc ivp => exact chainCommand_endsAlike h hlegal rfl (hfits rfl) rfl cbcDecTurn_blockTurn cbcDecTurn_turnAlike
  | decCfb ivp => exact chainCommand_endsAlike h hlegal rfl (hfits rfl) rfl cfbDecTurn_blockTurn cfbDecTurn_turnAlike

end

/-- Settles O49: the two runs go side by side, and what they read alike they leave alike. -/
theorem commandsDependOnlyOnWhatTheyRead : Obligations.CommandsDependOnlyOnWhatTheyRead := by
  intro i s s' hfits hbuf hlegal hcfg hlen hkey hiv hibuf
  obtain ⟨t, t', ht, ht', hres⟩ := exec_endsAlike ⟨hbuf, hcfg, hlen, hkey, hiv, hibuf⟩ hlegal hfits
  exact ⟨t, t', ht, ht', hres.cfg, hres.status, hres.olen, hres.rk, hres.obuf⟩

end Sys2Proof.Machine
end

