-- ==== Sys2Proof/Proofs/State.lean ====
section
/-! PROOFS. The statements of spec/10_state.md: what commands leave alone (O46 to O48), the configuration (O52), the
placed command word (O54) and the state after reset (O58, O59). What a command depends on (O49) has its own file. -/

namespace Sys2Proof.Machine

/-! ## What commands leave alone -/

/-- With LEN within the capacity where the command reads it, every command completes: on one core, by the law of two
cores that O51 rests on. -/
theorem exec_completes {i : Instr} {s : State} (h : FitsBuffer i s) : ∃ t, exec i s = .next t :=
  (exec_completesAlike h (m := s.bufBytes) h).imp fun _ => And.left

/-- Settles O46: completion, and the operands kept by every command that completes. -/
theorem commandsNeverWriteTheirOperands : Obligations.CommandsNeverWriteTheirOperands := by
  refine ⟨fun i s hfits => ?_, fun i s t h => exec_operandsKept h⟩
  obtain ⟨t, h⟩ := exec_completes hfits
  exact ⟨t, h, exec_operandsKept h⟩

theorem CommandEnds.cfg {i : Instr} {s t : State} (h : CommandEnds i s t) : t.cfg = s.cfg := by
  cases h with
  | error e => rfl
  | success olen fits work => exact work.cfg

/-- Settles O47: an error entry and the work of a command both keep CFG. -/
theorem onlyCfgWritesTheConfiguration : Obligations.OnlyCfgWritesTheConfiguration :=
  fun _ _ _ hi h => (exec_ends hi h).cfg

theorem execCfg_hidden {bits : Nat} {s t : State} (h : execCfg bits s = .next t) :
    t.chain = s.chain ∧ t.st = s.st ∧ t.rk = s.rk ∧ t.counters = s.counters := by
  rcases execCfg_next_cases h with ⟨v, -, rfl⟩ | rfl
  · exact ⟨rfl, rfl, rfl, rfl⟩
  · exact ⟨rfl, rfl, rfl, rfl⟩

theorem execKexp_hidden {s t : State} (h : execKexp s = .next t) : t.chain = s.chain ∧ t.st = s.st := by
  rcases execKexp_cases s with ⟨-, he⟩ | ⟨-, he⟩ <;> rw [he] at h <;> cases h
  · exact ⟨rfl, rfl⟩
  · exact ⟨rfl, rfl⟩

theorem blockCommand_chain {f : Block → List Byte → Nat → Block} {s t : State} (h : blockCommand f s = .next t) :
    t.chain = s.chain := by
  rcases blockCommand_cases f s with ⟨-, he⟩ | ⟨-, he⟩ <;> rw [he] at h <;> cases h
  · rfl
  · rfl

/-- A message command leaves CHAIN alone when its work does. -/
theorem messageCommand_chain {needsIV ivp : Bool} {work : State → State} {s t : State}
    (hwork : (work s).chain = s.chain) (h : messageCommand needsIV ivp work s = .next t) : t.chain = s.chain := by
  rcases messageCommand_cases needsIV ivp work s with
    ⟨-, he⟩ | ⟨-, -, he⟩ | ⟨-, -, -, -, he⟩ | ⟨-, -, -, -, he⟩ | ⟨-, -, -, -, he⟩ <;> rw [he] at h <;> cases h
  · rfl
  · rfl
  · rfl
  · exact hwork

theorem plainTurn_chain (out : Block → Block) (b : Nat) (s : State) : (plainTurn out b s).chain = s.chain := rfl

theorem ecbEncTurn_chain (b : Nat) (s : State) : (ecbEncTurn b s).chain = s.chain := plainTurn_chain _ b s

theorem ecbDecTurn_chain (b : Nat) (s : State) : (ecbDecTurn b s).chain = s.chain := plainTurn_chain _ b s

/-- The work of an ECB command leaves CHAIN alone when its turns do. -/
theorem plainWork_chain {turn : Nat → State → State} (ht : ∀ b u, (turn b u).chain = u.chain) (s : State) :
    (plainWork turn s).chain = s.chain :=
  forBlocks_keeps (P := fun u => u.chain = s.chain) (fun b u hu => (ht b u).trans hu) (blockCount s)
    (s := expandKey s) rfl

/-- CHAIN is written by the commands of CBC and CFB alone (spec/10_state.md R30). -/
theorem exec_chain {i : Instr} {s t : State} (hi : requiresIV i = false) (h : exec i s = .next t) :
    t.chain = s.chain := by
  cases i with
  | cfg bits => exact (execCfg_hidden h).1
  | kexp => exact (execKexp_hidden h).1
  | encb | decb => exact blockCommand_chain h
  | encEcb ivp => exact messageCommand_chain (plainWork_chain ecbEncTurn_chain s) h
  | decEcb ivp => exact messageCommand_chain (plainWork_chain ecbDecTurn_chain s) h
  | encCbc | encCfb | decCbc | decCfb => cases hi

/-- Settles O48: by the case laws of the commands that leave the registers alone. -/
theorem hiddenRegistersHaveTheirWriters : Obligations.HiddenRegistersHaveTheirWriters :=
  ⟨fun _ _ _ hi h => exec_chain hi h, fun _ _ h => (execKexp_hidden h).2, fun _ _ _ h => (execCfg_hidden h).2⟩

/-! ## The configuration -/

/-- A command keeps CFG, or it is CFG and leaves a legal one. -/
theorem exec_cfgLegal {i : Instr} {s t : State} (hs : CfgLegal s.cfg) (h : exec i s = .next t) : CfgLegal t.cfg := by
  cases hi : needsConfig i with
  | true => rwa [(exec_ends hi h).cfg]
  | false =>
    cases i with
    | cfg bits =>
      rcases execCfg_next_cases h with ⟨v, hv, rfl⟩ | rfl
      · exact hv
      · exact .inl rfl
    | _ => cases hi

theorem transact_cfgLegal {tr : Transaction} {s t : State} (hs : CfgLegal s.cfg) (h : transact tr s = .next t) :
    CfgLegal t.cfg := by
  rcases transact_next_cases h with ⟨w, -, hw⟩ | ⟨key, iv, len, answer, rfl⟩ | ⟨k, v, -, rfl⟩
  · rcases hostCommand_cases w s with ⟨i, -, he⟩ | ⟨-, -, he⟩ <;> rw [he] at hw
    · exact exec_cfgLegal hs hw
    · cases hw
      exact hs
  · exact hs
  · exact hs

theorem step_cfgLegal {s t : State} (hs : CfgLegal s.cfg) (h : step s = .next t) : CfgLegal t.cfg := by
  rcases step_next_cases h with ⟨-, rfl⟩ | ⟨rest, -, rfl⟩ | ⟨tr, rest, -, htr⟩
  · exact hs
  · exact .inl rfl
  · exact transact_cfgLegal (s := { s with inputs := rest }) hs htr

/-- The fields of the three configurations (spec/10_state.md R24). -/
theorem Configured.fieldsRelated {s : State} (h : Configured s) :
    cfgValid s = true ∧ cfgKlb s ∈ [128, 192, 256] ∧ cfgNk s = cfgKlb s / 32 ∧ cfgNr s = cfgNk s + 6 := by
  rcases h with h | h | h <;> simp [cfgValid, cfgKlb, cfgNk, cfgNr, h]

/-- Settles O52: CFG is 0 at reset, every step keeps it legal, and the legal values are 0 and the configurations. -/
theorem configurationStaysLegal : Obligations.ConfigurationStaysLegal :=
  ⟨fun _ => .inl rfl, .inl rfl, fun _ _ => step_cfgLegal, fun _ hs => hs.imp_right Configured.fieldsRelated⟩

/-! ## The placed command word -/

theorem hostCommand_of_decode {w : Reg32} {i : Instr} (h : decode w = .ok i) (s : State) :
    hostCommand w s = exec i s := by
  rw [hostCommand, h]

/-- The step takes the word issued off the queue again before it runs it. -/
theorem step_issueNext (w : Reg32) (s : State) : step (issueNext w s) = hostCommand w s := rfl

theorem tableWord_of_lt {nbits w : Nat} (h : w < 2 ^ nbits) : tableWord nbits w = BitVec.ofNat 32 w := by
  rw [tableWord, Nat.mod_eq_of_lt h]

/-- Settles O54: the word placed is the word the step takes, and it runs as the command it decodes to. -/
theorem placedWordRunsNext : Obligations.PlacedWordRunsNext := by
  intro s w i hdecode hw
  rw [State.withFetchWord, step_issueNext, tableWord_of_lt hw]
  exact hostCommand_of_decode hdecode s

/-! ## The state after reset -/

theorem resetWith_machineInv {n : Nat} (hn : Config.BufBytesLegal n) : MachineInv (State.resetWith n) where
  cfg_legal := .inl rfl
  status_legal := Nat.zero_le 4
  error_olen _ := rfl
  ibuf_wf := (resetWith_memories_wf n).1
  obuf_wf := (resetWith_memories_wf n).2
  bufBytes_legal := hn
  ibuf_range := nofun
  obuf_range := nofun

/-- Settles O58, for every core, and for the one of the largest BUF_BYTES. -/
theorem invariantHoldsAtReset : Obligations.InvariantHoldsAtReset :=
  ⟨fun _ => resetWith_machineInv, resetWith_machineInv (by decide)⟩

/-- The idle core stays as it is (spec/60_exceptions.md R193). -/
theorem step_idle {s : State} (h : s.inputs = []) : step s = .next s := by
  rw [step, serveNext, h]

/-- CFG.VALID = 0 where CFG = 0. -/
theorem cfgValid_of_cfg_zero {s : State} (h : s.cfg = 0) : cfgValid s = false := by
  simp [cfgValid, h]

/-- Settles O59: the reset values as they stand in `State.resetWith`, and the idle step. -/
theorem resetValues : Obligations.ResetValues := by
  refine ⟨fun n => ⟨rfl, cfgValid_of_cfg_zero rfl, rfl, rfl, rfl, rfl, step_idle rfl⟩, rfl, rfl, ?_, rfl, rfl, rfl, ?_⟩
  · exact cfgValid_of_cfg_zero rfl
  · exact step_idle rfl

end Sys2Proof.Machine
end

