-- ==== Sys2Proof/Proofs/Memory.lean ====
section
/-! PROOFS. The statements of spec/20_memory.md: a message beyond BUF_BYTES (O44), a step on a command word (O53), the
table of host transactions (O55), and that nothing of the table stops the core (O56). -/

namespace Sys2Proof.Machine

/-! ## A message beyond the buffer -/

/-- With LEN beyond BUF_BYTES a message command never comes to its work: it reports its first error, or is refused. -/
theorem messageCommand_beyond (needsIV ivp : Bool) (work : State → State) {s : State}
    (h : s.bufBytes < s.len.toNat) :
    messageCommand needsIV ivp work s =
      if cfgValid s = false then .next { s with status := 1, olen := 0 }
      else if s.len.toNat % 16 ≠ 0 then .next { s with status := 2, olen := 0 }
      else if needsIV = true ∧ ivp = false then .next { s with status := 3, olen := 0 }
      else .refused .beyondBuffer := by
  rcases messageCommand_cases needsIV ivp work s with
    ⟨hv, he⟩ | ⟨hv, hl, he⟩ | ⟨hv, hl, hn, hi, he⟩ | ⟨-, -, -, hfits, -⟩ | ⟨hv, hl, hi, -, he⟩
  · rw [he, if_pos hv]; rfl
  · rw [he, if_neg (by simp [hv]), if_pos hl]; rfl
  · rw [he, if_neg (by simp [hv]), if_neg (by simp [hl]), if_pos ⟨hn, hi⟩]; rfl
  · exact absurd h (Nat.not_lt.2 hfits)
  · rw [he, if_neg (by simp [hv]), if_neg (by simp [hl]), if_neg fun ⟨hn, hf⟩ => by simp [hi hn] at hf]

/-- Settles O44: the six message commands are one shape, and `requiresIV` and `givesIV` are its two flags. -/
theorem messagesBeyondTheBuffer : Obligations.MessagesBeyondTheBuffer := by
  intro i s hi h
  cases i with
  | cfg | kexp | encb | decb => cases hi
  | encEcb ivp | decEcb ivp => exact messageCommand_beyond false ivp _ h
  | encCbc ivp | encCfb ivp | decCbc ivp | decCfb ivp => exact messageCommand_beyond true ivp _ h

/-! ## A step on the next input -/

theorem step_transaction {s : State} {t : Transaction} {rest : List Input} (h : s.inputs = .transaction t :: rest) :
    step s = transact t { s with inputs := rest } := by
  rw [step, serveNext, h]; rfl

theorem step_reset {s : State} {rest : List Input} (h : s.inputs = .reset :: rest) :
    step s = .next (applyReset { s with inputs := rest }) := by
  rw [step, serveNext, h]; rfl

theorem hostCommand_of_decode_error {w : Reg32} {e : IllegalWord} (h : decode w = .error e) (s : State) :
    hostCommand w s = .next (raise .illegalCommand s) := by
  rw [hostCommand, h]

/-- Settles O53: the step is the host's command on the rest of the queue. -/
theorem stepRunsTheDecodedCommand : Obligations.StepRunsTheDecodedCommand := by
  refine ⟨fun s w i rest hin hw => ?_, fun s w e rest hin hw => ?_⟩
  · rw [step_transaction hin]
    exact hostCommand_of_decode hw _
  · rw [step_transaction hin]
    exact hostCommand_of_decode_error hw _

/-! ## The table of host transactions -/

/-- A byte can be read exactly where the table has the transaction. -/
theorem hostByte?_isSome (space : Space) (k : Nat) (s : State) :
    (hostByte? space k s).isSome = (Transaction.readByte space k).inTable s.bufBytes := by
  cases space with
  | key | iv | rk => rw [Bool.eq_iff_iff]; simp [hostByte?, Transaction.inTable]
  | ibuf | obuf => by_cases hk : k < s.bufBytes <;> simp [hostByte?, Transaction.inTable, hk]
  | st | chain => rfl

theorem transact_readByte_of_some {space : Space} {k : Nat} {s : State} {v : Byte} (h : hostByte? space k s = some v) :
    transact (.readByte space k) s = .next { s with answer := some (.byte v) } := by
  rw [transact, h]

theorem transact_readByte_of_none {space : Space} {k : Nat} {s : State} (h : hostByte? space k s = none) :
    transact (.readByte space k) s = .refused .noSuchTransaction := by
  rw [transact, h]

/-- What a transaction comes to: a command word is left to `hostCommand`, any other transaction of the table is answered,
and one outside the table is refused (spec/20_memory.md R56). -/
inductive TableOutcome (t : Transaction) (s : State) : Prop
  | command (w : Reg32) (h : t = .command w)
  | answered (u : State) (inTable : t.inTable s.bufBytes = true) (h : transact t s = .next u)
  | refused (outside : t.inTable s.bufBytes = false) (h : transact t s = .refused .noSuchTransaction)

theorem writeByte_tableOutcome (space : Space) (k : Nat) (v : Byte) (s : State) :
    TableOutcome (.writeByte space k v) s := by
  cases space with
  | key =>
    by_cases hk : k < 32
    · exact .answered _ (decide_eq_true hk) (dif_pos hk)
    · exact .refused (decide_eq_false hk) (dif_neg hk)
  | iv =>
    by_cases hk : k < 16
    · exact .answered _ (decide_eq_true hk) (dif_pos hk)
    · exact .refused (decide_eq_false hk) (dif_neg hk)
  | ibuf =>
    by_cases hk : k < s.bufBytes
    · exact .answered _ (decide_eq_true hk) (if_pos hk)
    · exact .refused (decide_eq_false hk) (if_neg hk)
  | obuf | rk | st | chain => exact .refused rfl rfl

theorem readByte_tableOutcome (space : Space) (k : Nat) (s : State) : TableOutcome (.readByte space k) s := by
  have htable := hostByte?_isSome space k s
  cases hbyte : hostByte? space k s with
  | some v => exact .answered _ (by rw [← htable, hbyte]; rfl) (transact_readByte_of_some hbyte)
  | none => exact .refused (by rw [← htable, hbyte]; rfl) (transact_readByte_of_none hbyte)

theorem transact_tableOutcome (t : Transaction) (s : State) : TableOutcome t s := by
  cases t with
  | command w => exact .command w rfl
  | readReg r => exact .answered _ rfl rfl
  | readByte space k => exact readByte_tableOutcome space k s
  | writeByte space k v => exact writeByte_tableOutcome space k v s
  | writeReg r v =>
    cases r with
    | len => exact .answered _ rfl rfl
    | cfg | status | olen => exact .refused rfl rfl

theorem transact_outside {t : Transaction} {s : State} (h : t.inTable s.bufBytes = false) :
    transact t s = .refused .noSuchTransaction := by
  cases transact_tableOutcome t s with
  | command w ht => subst ht; cases h
  | answered u hin _ => cases hin.symm.trans h
  | refused _ ht => exact ht

/-- A byte written to IBUF is the byte read at its address, and every other byte is the one it was. -/
theorem ibufByte_write (s : State) (a : Nat) (v : Byte) (x : Nat) :
    ibufByte { s with ibuf := s.ibuf.write a v } x = if x = a then v else ibufByte s x := by
  simp only [ibufByte, Memory.find?_write]
  split <;> rfl

/-- Settles O55: the rows of the table one by one, and the refusal of all else. -/
theorem hostTransactionsOfTheTable : Obligations.HostTransactionsOfTheTable :=
  ⟨fun _ _ _ h => dif_pos h,
    fun _ _ _ h => dif_pos h,
    fun s a v h => ⟨s.ibuf.write a v, if_pos h, ibufByte_write s a v⟩,
    fun _ _ => rfl,
    fun _ _ h => transact_readByte_of_some (Vector.getElem?_eq_getElem h),
    fun _ _ h => transact_readByte_of_some (Vector.getElem?_eq_getElem h),
    fun _ _ h => transact_readByte_of_some (Vector.getElem?_eq_getElem h),
    fun _ _ h => ⟨transact_readByte_of_some (if_pos h), transact_readByte_of_some (if_pos h)⟩,
    fun _ => ⟨rfl, rfl, rfl, rfl⟩,
    fun s _ _ h => hostCommand_of_decode h s,
    fun _ _ => transact_outside⟩

/-! ## Nothing of the table stops the core -/

/-- A command word is answered: an illegal one by an error entry, and a legal one when LEN fits. -/
theorem hostCommand_completes {w : Reg32} {s : State} (hfits : ∀ i, decode w = .ok i → FitsBuffer i s) :
    ∃ t, hostCommand w s = .next t := by
  rcases hostCommand_cases w s with ⟨i, hw, he⟩ | ⟨-, -, he⟩ <;> rw [he]
  · exact exec_completes (hfits i hw)
  · exact ⟨_, rfl⟩

theorem transact_completes {t : Transaction} {s : State} (hin : t.inTable s.bufBytes = true)
    (hfits : ∀ w i, t = .command w → decode w = .ok i → FitsBuffer i s) : ∃ u, transact t s = .next u := by
  cases transact_tableOutcome t s with
  | command w ht =>
    subst ht
    exact hostCommand_completes fun i => hfits w i rfl
  | answered u _ ht => exact ⟨u, ht⟩
  | refused hout _ => cases hin.symm.trans hout

/-- Settles O56: idle, reset and transaction, the three things a step can meet in the queue. -/
theorem everyStepOfTheTableGoesOn : Obligations.EveryStepOfTheTableGoesOn := by
  intro s hin hfits
  unfold StepSafe
  cases hq : s.inputs with
  | nil => exact ⟨s, step_idle hq⟩
  | cons i rest =>
    cases i with
    | reset => exact ⟨_, step_reset hq⟩
    | transaction t =>
      rw [step_transaction hq]
      exact transact_completes (hin t rest hq) fun w i ht => hfits w i rest (ht ▸ hq)

end Sys2Proof.Machine
end

