-- ==== Sys2Proof/Proofs/Encoding.lean ====
section
/-! PROOFS. The statements of spec/30_encoding.md: the worked encodings (O1), the legal words (O3), the illegal ones
(O4) and the rows of the opcode map (O5). They rest on what `decode` answers on each form of a word, said once. -/

namespace Sys2Proof.Machine

open Laws.TableRow (rowMask rowMatch)

/-! ## What the decoder answers on each form of a word -/

/-- The forms of a word that R76 tells apart: Z ≠ 0, or format C with one of the four opcodes or a reserved one. -/
inductive WordForm : Reg32 → Prop
  | nonzeroZ {w : Reg32} (hz : zField w ≠ 0) : WordForm w
  | cfg (mode : BitVec 2) (dir ivp : Bool) (imm : BitVec 16) : WordForm (formatC 1 mode dir ivp imm)
  | kexp (mode : BitVec 2) (dir ivp : Bool) (imm : BitVec 16) : WordForm (formatC 2 mode dir ivp imm)
  | block (mode : BitVec 2) (dir ivp : Bool) (imm : BitVec 16) : WordForm (formatC 3 mode dir ivp imm)
  | message (mode : BitVec 2) (dir ivp : Bool) (imm : BitVec 16) : WordForm (formatC 4 mode dir ivp imm)
  | reserved {opc : BitVec 4} (mode : BitVec 2) (dir ivp : Bool) (imm : BitVec 16)
      (hopc : opc ≠ 1 ∧ opc ≠ 2 ∧ opc ≠ 3 ∧ opc ≠ 4) : WordForm (formatC opc mode dir ivp imm)

theorem wordForm_formatC (opc : BitVec 4) (mode : BitVec 2) (dir ivp : Bool) (imm : BitVec 16) :
    WordForm (formatC opc mode dir ivp imm) := by
  by_cases h1 : opc = 1
  · exact h1 ▸ .cfg mode dir ivp imm
  by_cases h2 : opc = 2
  · exact h2 ▸ .kexp mode dir ivp imm
  by_cases h3 : opc = 3
  · exact h3 ▸ .block mode dir ivp imm
  by_cases h4 : opc = 4
  · exact h4 ▸ .message mode dir ivp imm
  exact .reserved mode dir ivp imm ⟨h1, h2, h3, h4⟩

/-- Every word has one of the forms. -/
theorem wordForm (w : Reg32) : WordForm w := by
  by_cases hz : zField w = 0
  · exact formatC_of_fields hz ▸ wordForm_formatC ..
  · exact .nonzeroZ hz

theorem decode_of_zField_ne_zero {w : Reg32} (hz : zField w ≠ 0) : decode w = .error .nonzeroZ := if_pos hz

theorem decode_formatC_cfg (mode : BitVec 2) (dir ivp : Bool) (imm : BitVec 16) :
    decode (formatC 1 mode dir ivp imm) =
      if mode = 0 ∧ dir = false ∧ ivp = false then .ok (.cfg imm.toNat) else .error .strayField := by
  simp [decode]

theorem decode_formatC_kexp (mode : BitVec 2) (dir ivp : Bool) (imm : BitVec 16) :
    decode (formatC 2 mode dir ivp imm) =
      if mode = 0 ∧ dir = false ∧ ivp = false ∧ imm = 0 then .ok .kexp else .error .strayField := by
  simp [decode]

theorem decode_formatC_block (mode : BitVec 2) (dir ivp : Bool) (imm : BitVec 16) :
    decode (formatC 3 mode dir ivp imm) =
      if mode = 0 ∧ ivp = false ∧ imm = 0 then .ok (if dir then .decb else .encb) else .error .strayField := by
  simp [decode]

theorem decode_formatC_message (mode : BitVec 2) (dir ivp : Bool) (imm : BitVec 16) :
    decode (formatC 4 mode dir ivp imm) =
      if imm ≠ 0 then .error .strayField
      else if mode = 0 then .ok (if dir then .decEcb ivp else .encEcb ivp)
      else if mode = 1 then .ok (if dir then .decCbc ivp else .encCbc ivp)
      else if mode = 2 then .ok (if dir then .decCfb ivp else .encCfb ivp)
      else .error .reservedMode := by
  simp [decode]

theorem decode_formatC_reserved {opc : BitVec 4} (mode : BitVec 2) (dir ivp : Bool) (imm : BitVec 16)
    (hopc : opc ≠ 1 ∧ opc ≠ 2 ∧ opc ≠ 3 ∧ opc ≠ 4) :
    decode (formatC opc mode dir ivp imm) = .error .reservedOpc := by
  obtain ⟨h1, h2, h3, h4⟩ := hopc
  unfold decode
  rw [if_neg (by simp), opcField_formatC, if_neg h1, if_neg h2, if_neg h3, if_neg h4]

/-! ## The fields of a word as numbers -/

theorem opcField_toNat (w : Reg32) : (opcField w).toNat = w.toNat / 2 ^ 28 := by
  rw [opcField, BitVec.extractLsb'_toNat, Nat.shiftRight_eq_div_pow]
  omega

theorem modeField_toNat (w : Reg32) : (modeField w).toNat = w.toNat / 2 ^ 26 % 4 := by
  rw [modeField, BitVec.extractLsb'_toNat, Nat.shiftRight_eq_div_pow]

theorem zField_toNat (w : Reg32) : (zField w).toNat = w.toNat / 2 ^ 16 % 256 := by
  rw [zField, BitVec.extractLsb'_toNat, Nat.shiftRight_eq_div_pow]

theorem immField_toNat (w : Reg32) : (immField w).toNat = w.toNat % 65536 := by
  rw [immField, BitVec.extractLsb'_toNat, Nat.shiftRight_zero]

theorem dirBit_toNat (w : Reg32) : (dirBit w).toNat = w.toNat / 2 ^ 25 % 2 := Nat.toNat_testBit ..

theorem ivpBit_toNat (w : Reg32) : (ivpBit w).toNat = w.toNat / 2 ^ 24 % 2 := Nat.toNat_testBit ..

/-! ## Decoding and encoding are inverse -/

/-- The word of a command decodes to it. -/
theorem decode_encode {i : Instr} (h : i.wellFormed = true) : decode (encode i) = .ok i := by
  cases i with
  | cfg bits =>
    have hbits : bits < 65536 := of_decide_eq_true h
    rw [encode, decode_formatC_cfg, if_pos ⟨rfl, rfl, rfl⟩, BitVec.toNat_ofNat, Nat.mod_eq_of_lt hbits]
  | kexp => exact decode_formatC_kexp 0 false false 0
  | encb => exact decode_formatC_block 0 false false 0
  | decb => exact decode_formatC_block 0 true false 0
  | encEcb ivp => exact decode_formatC_message 0 false ivp 0
  | encCbc ivp => exact decode_formatC_message 1 false ivp 0
  | encCfb ivp => exact decode_formatC_message 2 false ivp 0
  | decEcb ivp => exact decode_formatC_message 0 true ivp 0
  | decCbc ivp => exact decode_formatC_message 1 true ivp 0
  | decCfb ivp => exact decode_formatC_message 2 true ivp 0

/-- A word that decodes to a command is the word of that command. -/
theorem wellFormed_and_encode_of_decode {w : Reg32} {i : Instr} (h : decode w = .ok i) :
    i.wellFormed = true ∧ encode i = w := by
  cases wordForm w with
  | nonzeroZ hz => rw [decode_of_zField_ne_zero hz] at h; cases h
  | reserved mode dir ivp imm hopc => rw [decode_formatC_reserved mode dir ivp imm hopc] at h; cases h
  | cfg mode dir ivp imm =>
    rw [decode_formatC_cfg] at h
    split at h
    · next hf =>
      obtain ⟨rfl, rfl, rfl⟩ := hf
      cases h
      exact ⟨decide_eq_true imm.isLt, by simp [encode]⟩
    · cases h
  | kexp mode dir ivp imm =>
    rw [decode_formatC_kexp] at h
    split at h
    · next hf =>
      obtain ⟨rfl, rfl, rfl, rfl⟩ := hf
      cases h
      exact ⟨rfl, rfl⟩
    · cases h
  | block mode dir ivp imm =>
    rw [decode_formatC_block] at h
    split at h
    · next hf =>
      obtain ⟨rfl, rfl, rfl⟩ := hf
      cases h
      cases dir <;> exact ⟨rfl, rfl⟩
    · cases h
  | message mode dir ivp imm =>
    rw [decode_formatC_message] at h
    split_ifs at h with himm h0 hdir h1 hdir h2 hdir
    all_goals
      cases h
      obtain rfl := not_not.1 himm
      subst mode
      simp [encode, Instr.wellFormed, hdir]

theorem decode_eq_ok_iff {w : Reg32} {i : Instr} : decode w = .ok i ↔ i.wellFormed = true ∧ encode i = w :=
  ⟨wellFormed_and_encode_of_decode, fun ⟨hwf, he⟩ => he ▸ decode_encode hwf⟩

/-- Settles O3: by the form of the word, each legal one being the format C of its command. -/
theorem legalWordIsTheEncodingOfItsCommand : Obligations.LegalWordIsTheEncodingOfItsCommand :=
  fun _ _ => wellFormed_and_encode_of_decode

/-! ## The illegal words -/

/-- The conditions of R78 on the numbers in the fields of a word. -/
def IllegalFields (opc mode dir ivp z imm : Nat) : Prop :=
  z ≠ 0 ∨ opc = 0 ∨ 5 ≤ opc ∨
    (opc = 1 ∧ (mode ≠ 0 ∨ dir ≠ 0 ∨ ivp ≠ 0)) ∨
    (opc = 2 ∧ (mode ≠ 0 ∨ dir ≠ 0 ∨ ivp ≠ 0 ∨ imm ≠ 0)) ∨
    (opc = 3 ∧ (mode ≠ 0 ∨ ivp ≠ 0 ∨ imm ≠ 0)) ∨
    (opc = 4 ∧ (mode = 3 ∨ imm ≠ 0))

theorem illegalFields_of_reserved {opc : BitVec 4} (mode dir ivp z imm : Nat)
    (hopc : opc ≠ 1 ∧ opc ≠ 2 ∧ opc ≠ 3 ∧ opc ≠ 4) : IllegalFields opc.toNat mode dir ivp z imm := by
  have hnum : opc.toNat = 0 ∨ 5 ≤ opc.toNat := by bv_omega
  exact .inr (hnum.imp_right .inl)

theorem exists_ite_ok_error_eq_error {c : Prop} [Decidable c] {i : Instr} {e₀ : IllegalWord} :
    (∃ e, (if c then Except.ok i else .error e₀) = .error e) ↔ ¬c := by
  split <;> simp [*]

/-- A message command is illegal with a reserved mode or an immediate. -/
theorem decode_formatC_message_error_iff (mode : BitVec 2) (dir ivp : Bool) (imm : BitVec 16) :
    (∃ e, decode (formatC 4 mode dir ivp imm) = .error e) ↔ mode = 3 ∨ imm ≠ 0 := by
  have hmode : mode = 3 ↔ mode ≠ 0 ∧ mode ≠ 1 ∧ mode ≠ 2 := by revert mode; decide
  rw [decode_formatC_message, hmode]
  split_ifs <;> simp_all

/-- The illegal words, form by form. -/
theorem decode_error_iff_fields (w : Reg32) :
    (∃ e, decode w = .error e) ↔
      IllegalFields (opcField w).toNat (modeField w).toNat (dirBit w).toNat (ivpBit w).toNat (zField w).toNat
        (immField w).toNat := by
  cases wordForm w with
  | nonzeroZ hz =>
    exact iff_of_true ⟨_, decode_of_zField_ne_zero hz⟩ (.inl fun h => hz (BitVec.eq_of_toNat_eq h))
  | reserved mode dir ivp imm hopc =>
    rw [opcField_formatC]
    exact iff_of_true ⟨_, decode_formatC_reserved mode dir ivp imm hopc⟩ (illegalFields_of_reserved _ _ _ _ _ hopc)
  | cfg mode dir ivp imm =>
    rw [decode_formatC_cfg, exists_ite_ok_error_eq_error, not_and_or, not_and_or]
    simp [IllegalFields, ← BitVec.toNat_inj]
  | kexp mode dir ivp imm =>
    rw [decode_formatC_kexp, exists_ite_ok_error_eq_error, not_and_or, not_and_or, not_and_or]
    simp [IllegalFields, ← BitVec.toNat_inj]
  | block mode dir ivp imm =>
    rw [decode_formatC_block, exists_ite_ok_error_eq_error, not_and_or, not_and_or]
    simp [IllegalFields, ← BitVec.toNat_inj]
  | message mode dir ivp imm =>
    rw [decode_formatC_message_error_iff]
    simp [IllegalFields, ← BitVec.toNat_inj]

/-- The illegal words, their fields read off the number. -/
theorem decode_error_iff (w : Reg32) :
    (∃ e, decode w = .error e) ↔
      IllegalFields (w.toNat / 2 ^ 28) (w.toNat / 2 ^ 26 % 4) (w.toNat / 2 ^ 25 % 2) (w.toNat / 2 ^ 24 % 2)
        (w.toNat / 2 ^ 16 % 256) (w.toNat % 65536) := by
  rw [decode_error_iff_fields, opcField_toNat, modeField_toNat, dirBit_toNat, ivpBit_toNat, zField_toNat,
    immField_toNat]

/-- Settles O4: the conditions of R78 opcode by opcode, and the error entry of `raise`. -/
theorem illegalWordsAndTheirEffect : Obligations.IllegalWordsAndTheirEffect :=
  ⟨decode_error_iff, fun _ s ⟨_, he⟩ => hostCommand_of_decode_error he s, ⟨.reservedOpc, by decide⟩,
    ⟨.nonzeroZ, by decide⟩⟩

/-! ## The rows of the opcode map -/

/-- The word of a command lies in the row of the command. -/
theorem encode_mem_row : ∀ i : Instr, encode i &&& rowMask i = rowMatch i
  | .cfg bits => Laws.TableRow.cfg bits
  | .kexp => Laws.TableRow.kexp
  | .encb => Laws.TableRow.encb
  | .decb => Laws.TableRow.decb
  | .encEcb ivp => Laws.TableRow.encEcb ivp
  | .encCbc ivp => Laws.TableRow.encCbc ivp
  | .encCfb ivp => Laws.TableRow.encCfb ivp
  | .decEcb ivp => Laws.TableRow.decEcb ivp
  | .decCbc ivp => Laws.TableRow.decCbc ivp
  | .decCfb ivp => Laws.TableRow.decCfb ivp

/-- A command with its free field, IMM16 or IVP, taken from a word. -/
def withFieldOf (w : Reg32) : Instr → Instr
  | .cfg _ => .cfg (immField w).toNat
  | .kexp => .kexp
  | .encb => .encb
  | .decb => .decb
  | .encEcb _ => .encEcb (ivpBit w)
  | .encCbc _ => .encCbc (ivpBit w)
  | .encCfb _ => .encCfb (ivpBit w)
  | .decEcb _ => .decEcb (ivpBit w)
  | .decCbc _ => .decCbc (ivpBit w)
  | .decCfb _ => .decCfb (ivpBit w)

theorem withFieldOf_wellFormed (w : Reg32) (i : Instr) : (withFieldOf w i).wellFormed = true := by
  cases i with
  | cfg => exact decide_eq_true (immField w).isLt
  | _ => rfl

/-- The free field does not move a command to another row. -/
theorem row_withFieldOf (w : Reg32) (i : Instr) :
    rowMask (withFieldOf w i) = rowMask i ∧ rowMatch (withFieldOf w i) = rowMatch i := by
  cases i <;> exact ⟨rfl, rfl⟩

/-- Words that agree under a mask and beside it are equal. -/
theorem eq_of_and_mask_eq {x y m : Reg32} (hin : x &&& m = y &&& m) (hout : x &&& ~~~m = y &&& ~~~m) : x = y := by
  apply BitVec.eq_of_getLsbD_eq
  intro k hk
  have hink := congrArg (fun v => v.getLsbD k) hin
  have houtk := congrArg (fun v => v.getLsbD k) hout
  simp only [BitVec.getLsbD_and, BitVec.getLsbD_not, hk, decide_true, Bool.true_and] at hink houtk
  cases hm : m.getLsbD k
  · simpa [hm] using houtk
  · simpa [hm] using hink

/-! Beside the three masks of the map stand IMM16, IVP and nothing. -/

theorem and_immMask (w : Reg32) : w &&& ~~~0xFFFF0000 = (immField w).setWidth 32 := by
  apply BitVec.eq_of_toNat_eq
  rw [BitVec.toNat_setWidth, immField_toNat, BitVec.toNat_and]
  exact (Nat.and_two_pow_sub_one_eq_mod w.toNat 16).trans (by omega)

theorem and_ivpMask (w : Reg32) : w &&& ~~~0xFEFFFFFF = if ivpBit w then BitVec.twoPow 32 24 else 0 := by
  have hmask : ~~~(0xFEFFFFFF : Reg32) = BitVec.twoPow 32 24 := by decide
  rw [hmask, BitVec.and_twoPow, ivpBit]
  rfl

theorem and_fullMask (w : Reg32) : w &&& ~~~0xFFFFFFFF = 0 := BitVec.and_zero

/-- Beside the mask of its row stands the free field of a command alone. -/
theorem encode_withFieldOf_beside_mask (w : Reg32) (i : Instr) :
    encode (withFieldOf w i) &&& ~~~rowMask i = w &&& ~~~rowMask i := by
  cases i with
  | cfg =>
    rw [rowMask, and_immMask, and_immMask, withFieldOf, encode, immField_formatC, BitVec.ofNat_toNat,
      BitVec.setWidth_eq]
  | kexp | encb | decb => rw [rowMask, and_fullMask, and_fullMask]
  | _ => rw [rowMask, and_ivpMask, and_ivpMask, withFieldOf, encode, ivpBit_formatC]

/-- A word lies in the row of a command exactly when it decodes to that command with the field of the word. -/
theorem mem_row_iff_decode (w : Reg32) (i : Instr) :
    w &&& rowMask i = rowMatch i ↔ decode w = .ok (withFieldOf w i) := by
  obtain ⟨hmask, hmatch⟩ := row_withFieldOf w i
  have hrow := encode_mem_row (withFieldOf w i)
  rw [hmask, hmatch] at hrow
  constructor
  · intro h
    exact decode_eq_ok_iff.2 ⟨withFieldOf_wellFormed w i,
      eq_of_and_mask_eq (hrow.trans h.symm) (encode_withFieldOf_beside_mask w i)⟩
  · intro h
    rw [← (decode_eq_ok_iff.1 h).2]
    exact hrow

/-- A word is illegal when it decodes to no command. -/
theorem decode_error_iff_forall_ne_ok (w : Reg32) : (∃ e, decode w = .error e) ↔ ∀ i, decode w ≠ .ok i := by
  cases decode w <;> simp

/-- The illegal words are those in no row. -/
theorem decode_error_iff_forall_not_mem_row (w : Reg32) :
    (∃ e, decode w = .error e) ↔ ∀ i, w &&& rowMask i ≠ rowMatch i := by
  rw [decode_error_iff_forall_ne_ok]
  constructor
  · exact fun hne i hrow => hne _ ((mem_row_iff_decode w i).1 hrow)
  · intro hrow i hi
    exact hrow i ((wellFormed_and_encode_of_decode hi).2 ▸ encode_mem_row i)

/-- The rows written out: three of the ten ask for the whole word, and six share the mask that leaves out IVP. -/
theorem forall_not_mem_row_iff (w : Reg32) :
    (∀ i, w &&& rowMask i ≠ rowMatch i) ↔
      (w &&& 0xFFFF0000 ≠ 0x10000000 ∧ w ≠ 0x20000000 ∧ w ≠ 0x30000000 ∧ w ≠ 0x32000000 ∧
       ∀ m ∈ ([0x40000000, 0x44000000, 0x48000000, 0x42000000, 0x46000000, 0x4A000000] : List Reg32),
         w &&& 0xFEFFFFFF ≠ m) := by
  have hfull : w &&& 0xFFFFFFFF = w := BitVec.and_allOnes
  simp only [List.forall_mem_cons, List.not_mem_nil, false_imp_iff, forall_true_iff, and_true]
  constructor
  · intro h
    exact ⟨h (.cfg 0), hfull ▸ h .kexp, hfull ▸ h .encb, hfull ▸ h .decb, h (.encEcb true), h (.encCbc true),
      h (.encCfb true), h (.decEcb true), h (.decCbc true), h (.decCfb true)⟩
  · rintro ⟨hcfg, hkexp, hencb, hdecb, hencEcb, hencCbc, hencCfb, hdecEcb, hdecCbc, hdecCfb⟩ i
    cases i with
    | cfg => exact hcfg
    | kexp => exact hfull.symm ▸ hkexp
    | encb => exact hfull.symm ▸ hencb
    | decb => exact hfull.symm ▸ hdecb
    | encEcb => exact hencEcb
    | encCbc => exact hencCbc
    | encCfb => exact hencCfb
    | decEcb => exact hdecEcb
    | decCbc => exact hdecCbc
    | decCfb => exact hdecCfb

/-- Settles O5: the law of the rows, at each of the ten commands; the operand given here is not read. -/
theorem opcodeRowsSelectTheirCommands : Obligations.OpcodeRowsSelectTheirCommands := fun w =>
  ⟨immField_toNat w ▸ mem_row_iff_decode w (.cfg 0),
    mem_row_iff_decode w .kexp,
    mem_row_iff_decode w .encb,
    mem_row_iff_decode w .decb,
    mem_row_iff_decode w (.encEcb true),
    mem_row_iff_decode w (.encCbc true),
    mem_row_iff_decode w (.encCfb true),
    mem_row_iff_decode w (.decEcb true),
    mem_row_iff_decode w (.decCbc true),
    mem_row_iff_decode w (.decCfb true),
    (decode_error_iff_forall_not_mem_row w).trans (forall_not_mem_row_iff w)⟩

/-! ## The worked encodings -/

/-- Settles O1: each word on its own, the illegal ones by the reason they are rejected for. -/
theorem workedEncodingsDecode : Obligations.WorkedEncodingsDecode := by
  refine ⟨by decide, by decide, by decide, by decide, by decide, by decide, by decide, by decide, by decide, by decide,
    by decide, by decide, by decide, ?_⟩
  simp only [List.forall_mem_cons, List.not_mem_nil, false_imp_iff, forall_true_iff, and_true]
  exact ⟨⟨.reservedOpc, by decide⟩, ⟨.reservedMode, by decide⟩, ⟨.nonzeroZ, by decide⟩, ⟨.strayField, by decide⟩,
    ⟨.strayField, by decide⟩, ⟨.reservedOpc, by decide⟩⟩

end Sys2Proof.Machine
end

