-- ==== Sys2Proof/Proofs/Gf.lean ====
section
/-! PROOFS. The statements of spec/40_gf_arithmetic.md: xtime (O6), the laws of the multiplier (O7), the products by the
matrix constants (O8) and Rcon (O9). The multiplier is read as a sum of terms. A map that keeps sums and multiples by x
passes through that sum, so it is the multiplication by its value at 1; the laws of the multiplier follow. -/

namespace Sys2Proof.Machine

/-! ## The multiplier as a sum of terms -/

/-- The sum of the terms of a product over the bits `ks` of b, the multiplicand stepping by xtime. -/
def gmulTerms (b : Byte) : List Nat → Byte → Byte
  | [], _ => 0
  | k :: ks, a => gmulTerm a b k ^^^ gmulTerms b ks (xtime a)

theorem foldl_gmulStep (b : Byte) (ks : List Nat) (p a : Byte) :
    (ks.foldl (gmulStep b) (p, a)).1 = p ^^^ gmulTerms b ks a := by
  induction ks generalizing p a with
  | nil => exact BitVec.xor_zero.symm
  | cons k ks ih => rw [List.foldl_cons, gmulStep_eq, ih, gmulTerms, BitVec.xor_assoc]

theorem gmul_eq_gmulTerms (a b : Byte) : gmul a b = gmulTerms b (List.range 8) a := by
  rw [gmul, foldl_gmulStep]
  exact BitVec.zero_xor

theorem gmulTerm_xor_left (a a' b : Byte) (k : Nat) :
    gmulTerm (a ^^^ a') b k = gmulTerm a b k ^^^ gmulTerm a' b k := by
  cases hk : b.getLsbD k <;> simp [gmulTerm, hk]

theorem gmulTerms_xor_left (b : Byte) (ks : List Nat) (a a' : Byte) :
    gmulTerms b ks (a ^^^ a') = gmulTerms b ks a ^^^ gmulTerms b ks a' := by
  induction ks generalizing a a' with
  | nil => exact BitVec.xor_zero.symm
  | cons k ks ih =>
    simp only [gmulTerms, gmulTerm_xor_left, xtime_xor, ih]
    ac_rfl

theorem gmul_xor_left (a a' b : Byte) : gmul (a ^^^ a') b = gmul a b ^^^ gmul a' b := by
  simp only [gmul_eq_gmulTerms, gmulTerms_xor_left]

/-- A byte is the sum of the powers of x at its bits. -/
theorem gmul_one_left : ∀ b : Byte, gmul 0x01 b = b := by decide +kernel

/-! ## The maps that keep sums and multiples by x -/

/-- f keeps sums and multiples by x: it is linear over the polynomials in x. -/
structure XLinear (f : Byte → Byte) : Prop where
  map_xor : ∀ a a', f (a ^^^ a') = f a ^^^ f a'
  map_xtime : ∀ a, f (xtime a) = xtime (f a)

section
variable {f : Byte → Byte} (h : XLinear f)
include h

theorem XLinear.map_zero : f 0 = 0 := by
  have hsum := h.map_xor 0 0
  rwa [BitVec.xor_self, BitVec.xor_self] at hsum

theorem XLinear.map_gmulTerm (a b : Byte) (k : Nat) : f (gmulTerm a b k) = gmulTerm (f a) b k := by
  rw [gmulTerm, apply_ite f, h.map_zero, gmulTerm]

/-- The sum of the terms of a product is formed from sums and multiples by x alone. -/
theorem XLinear.map_gmulTerms (b : Byte) (ks : List Nat) (a : Byte) : f (gmulTerms b ks a) = gmulTerms b ks (f a) := by
  induction ks generalizing a with
  | nil => exact h.map_zero
  | cons k ks ih => rw [gmulTerms, h.map_xor, h.map_gmulTerm, ih, h.map_xtime, gmulTerms]

theorem XLinear.map_gmul (a b : Byte) : f (gmul a b) = gmul (f a) b := by
  rw [gmul_eq_gmulTerms, h.map_gmulTerms, ← gmul_eq_gmulTerms]

/-- Such a map is the multiplication by its value at 1. -/
theorem XLinear.eq_gmul (b : Byte) : f b = gmul (f 0x01) b := by
  rw [← h.map_gmul, gmul_one_left]

end

theorem xtime_xLinear : XLinear xtime := ⟨xtime_xor, fun _ => rfl⟩

theorem gmul_xtime_left (a b : Byte) : gmul (xtime a) b = xtime (gmul a b) := (xtime_xLinear.map_gmul a b).symm

theorem gmul_left_xLinear (b : Byte) : XLinear (gmul · b) :=
  ⟨fun a a' => gmul_xor_left a a' b, fun a => gmul_xtime_left a b⟩

/-! ## The laws of the field (R93) -/

theorem gmul_comm (a b : Byte) : gmul a b = gmul b a := by
  rw [(gmul_left_xLinear b).eq_gmul a, gmul_one_left]

theorem gmul_assoc (a b c : Byte) : gmul a (gmul b c) = gmul (gmul a b) c := by
  rw [gmul_comm a, gmul_comm a]
  exact ((gmul_left_xLinear c).map_gmul b a).symm

theorem gmul_zero_right (a : Byte) : gmul a 0 = 0 := (gmul_comm a 0).trans (gmul_left_xLinear a).map_zero

theorem gmul_one_right (a : Byte) : gmul a 0x01 = a := (gmul_comm a 0x01).trans (gmul_one_left a)

theorem gmul_xor_right (a b c : Byte) : gmul a (b ^^^ c) = gmul a b ^^^ gmul a c := by
  rw [gmul_comm, gmul_xor_left, gmul_comm b, gmul_comm c]

theorem gmul_xtime_right (a b : Byte) : gmul a (xtime b) = xtime (gmul a b) := by
  rw [gmul_comm, gmul_xtime_left, gmul_comm]

/-- The byte whose affine image R106 puts in SBox at a: the affine map undone on the entry of the ROM. -/
def gmulInverse (a : Byte) : Byte :=
  (sBox a).rotateLeft 1 ^^^ (sBox a).rotateLeft 3 ^^^ (sBox a).rotateLeft 6 ^^^ 0x05

/-- The ROM holds the inverse of every byte but 0. -/
theorem gmul_gmulInverse : ∀ {a : Byte}, a ≠ 0 → gmul a (gmulInverse a) = 0x01 := by decide +kernel

/-- A factor that is not 0 can be cancelled. -/
theorem gmulInverse_gmul_cancel {a : Byte} (ha : a ≠ 0) (b : Byte) : gmul (gmulInverse a) (gmul a b) = b := by
  rw [gmul_assoc, gmul_comm (gmulInverse a), gmul_gmulInverse ha, gmul_one_left]

/-- Settles O7: the inverse gives the absence of zero divisors too, by cancelling the operand that is not 0. -/
theorem gmulFieldLaws : Obligations.GmulFieldLaws := by
  refine ⟨gmul_comm, gmul_assoc, gmul_xor_right, fun a b hab => or_iff_not_imp_left.2 fun ha => ?_,
    fun a ha => ⟨gmulInverse a, gmul_gmulInverse ha, fun b' hb' => ?_⟩⟩
  · rw [← gmulInverse_gmul_cancel ha b, hab, gmul_zero_right]
  · rw [← gmulInverse_gmul_cancel ha b', hb', gmul_one_right]

/-! ## xtime (R91) -/

/-- The bit of the shifted operand, and the bit of 0x1b where the top bit was set. -/
theorem getLsbD_xtime (a : Byte) (k : Nat) :
    (xtime a).getLsbD k = ((a <<< 1).getLsbD k ^^ (a.getLsbD 7 && (0x1b : Byte).getLsbD k)) := by
  rw [xtime]
  cases a.getLsbD 7
  · exact (Bool.xor_false _).symm
  · exact BitVec.getLsbD_xor

/-- Multiplication by 0x8d, the inverse of x, undoes xtime on either side. -/
theorem xtime_eq_iff (a r : Byte) : xtime a = r ↔ a = gmul r 0x8d := by
  have hx : xtime 0x8d = 0x01 := by decide
  constructor
  · rintro rfl
    rw [gmul_xtime_left, ← gmul_xtime_right, hx, gmul_one_right]
  · rintro rfl
    rw [← gmul_xtime_right, hx, gmul_one_right]

/-- Settles O6: the bits by the bit rule of xtime, the bijection by its inverse. -/
theorem xtimeBitByBit : Obligations.XtimeBitByBit := by
  refine ⟨fun a => ?_, fun r => ⟨gmul r 0x8d, (xtime_eq_iff _ r).2 rfl, fun a' => (xtime_eq_iff a' r).1⟩,
    by decide, by decide, by decide, by decide, by decide⟩
  simp only [getLsbD_xtime, BitVec.getLsbD_shiftLeft]
  simp

/-! ## The matrix constants (R94) -/

theorem gmul_two_left (a : Byte) : gmul 0x02 a = xtime a :=
  (gmul_xtime_left 0x01 a).trans (congrArg xtime (gmul_one_left a))

theorem gmul_four_left (a : Byte) : gmul 0x04 a = xtime (xtime a) :=
  (gmul_xtime_left 0x02 a).trans (congrArg xtime (gmul_two_left a))

theorem gmul_eight_left (a : Byte) : gmul 0x08 a = xtime (xtime (xtime a)) :=
  (gmul_xtime_left 0x04 a).trans (congrArg xtime (gmul_four_left a))

/-- Settles O8: each constant as the sum of its powers of x. -/
theorem gmulByTheMatrixConstants : Obligations.GmulByTheMatrixConstants := by
  intro a
  have h3 : (0x03 : Byte) = 0x02 ^^^ 0x01 := by decide
  have h9 : (0x09 : Byte) = 0x08 ^^^ 0x01 := by decide
  have hb : (0x0b : Byte) = 0x08 ^^^ 0x02 ^^^ 0x01 := by decide
  have hd : (0x0d : Byte) = 0x08 ^^^ 0x04 ^^^ 0x01 := by decide
  have he : (0x0e : Byte) = 0x08 ^^^ 0x04 ^^^ 0x02 := by decide
  rw [h3, h9, hb, hd, he]
  simp only [gmul_xor_left, gmul_one_left, gmul_two_left, gmul_four_left, gmul_eight_left, and_self]

/-! ## Rcon (R95) -/

theorem rcon_succ {n : Nat} (hn : 1 ≤ n) : rcon (n + 1) = ⟨xtime (rcon n).b0, 0, 0, 0⟩ := by
  obtain ⟨m, rfl⟩ := Nat.exists_eq_add_of_le' hn
  rfl

/-- Settles O9: the recurrence for every n, and the ten values of the table. -/
theorem rconPowersOfX : Obligations.RconPowersOfX :=
  ⟨rfl, fun _ => rcon_succ, by decide⟩

end Sys2Proof.Machine
end

