-- ==== Sys2Proof/Proofs/Sbox.lean ====
section
/-! PROOFS. The statements of spec/41_sbox_rom.md: the generating definition of SBOX (O10) and the two ROMs as inverse
permutations (O11). The field inverse is `gmulInverse`, of the layer of the field. That INVSBOX undoes SBOX is read off
the ROMs byte by byte; that SBOX undoes INVSBOX follows, the bytes being finitely many. -/

namespace Sys2Proof.Machine

/-! ## The generating definition (R106) -/

/-- The affine map of R106. -/
def sboxAffine (b : Byte) : Byte :=
  b ^^^ b.rotateLeft 1 ^^^ b.rotateLeft 2 ^^^ b.rotateLeft 3 ^^^ b.rotateLeft 4 ^^^ 0x63

/-- The affine map has an inverse of the same kind, the one `gmulInverse` applies to the entry of the ROM. -/
theorem sboxAffine_undone : ∀ y : Byte,
    sboxAffine (y.rotateLeft 1 ^^^ y.rotateLeft 3 ^^^ y.rotateLeft 6 ^^^ 0x05) = y := by decide +kernel

theorem sBox_eq_sboxAffine (a : Byte) : sBox a = sboxAffine (gmulInverse a) := (sboxAffine_undone (sBox a)).symm

theorem gmulInverse_zero : gmulInverse 0 = 0 := by decide

/-- Settles O10: the inverse of the field, with 0 for 0, in the affine map. -/
theorem sboxMeetsItsDefinition : Obligations.SboxMeetsItsDefinition := by
  refine fun a => ⟨gmulInverse a, ?_, sBox_eq_sboxAffine a⟩
  by_cases ha : a = 0
  · exact .inl ⟨ha, ha ▸ gmulInverse_zero⟩
  · exact .inr ⟨ha, gmul_gmulInverse ha⟩

/-! ## The two ROMs (R102, R104) -/

/-- INVSBOX undoes SBOX (R103). -/
theorem invSBox_sBox : ∀ a : Byte, invSBox (sBox a) = a := by decide +kernel

/-- SBOX undoes INVSBOX: by `invSBox_sBox` it is injective, so on the bytes it is surjective. -/
theorem sBox_invSBox : ∀ y : Byte, sBox (invSBox y) = y :=
  have hleft : Function.LeftInverse invSBox sBox := invSBox_sBox
  hleft.rightInverse_of_surjective (Finite.surjective_of_injective hleft.injective)

theorem sBox_eq_iff {a y : Byte} : sBox a = y ↔ a = invSBox y :=
  ⟨fun h => h ▸ (invSBox_sBox a).symm, fun h => h ▸ sBox_invSBox y⟩

theorem sBox_ne_self : ∀ a : Byte, sBox a ≠ a := by decide +kernel

theorem sBox_ne_xor_ff : ∀ a : Byte, sBox a ≠ a ^^^ 0xff := by decide +kernel

/-- Settles O11: the inverse laws, by which the one byte that SBOX sends to 0 is the entry of INVSBOX at 0. -/
theorem sboxRomsAreInverse : Obligations.SboxRomsAreInverse := by
  have hzero : invSBox 0x00 = 0x52 := by decide
  exact ⟨fun a => ⟨invSBox_sBox a, sBox_invSBox a, sBox_ne_self a, sBox_ne_xor_ff a, hzero ▸ sBox_eq_iff⟩,
    by decide, by decide, by decide, hzero, by decide, by decide, by decide⟩

end Sys2Proof.Machine
end

