-- ==== Sys2Proof/Proofs/KeyExpander.lean ====
section
/-! PROOFS. The statements of spec/42_key_expander.md: the accepted lengths (O12), CFG (O13), the word functions (O14),
the recurrence of the expansion (O15), and KEXP with its frame (O16) and its determinism (O17). -/

namespace Sys2Proof.Machine

/-! ## CFG (R111, R112) -/

theorem deriveConfig_eq_some_iff (n : Nat) (p : Nat × Nat) :
    deriveConfig n = some p ↔
      (n = 128 ∧ p = (4, 10)) ∨ (n = 192 ∧ p = (6, 12)) ∨ (n = 256 ∧ p = (8, 14)) := by
  unfold deriveConfig
  split_ifs with h128 h192 h256
  · simp [h128, eq_comm]
  · simp [h192, eq_comm]
  · simp [h256, eq_comm]
  · simp [h128, h192, h256]

/-- Settles O12: the three lengths one by one, and every other length. -/
theorem deriveConfigAcceptsThreeLengths : Obligations.DeriveConfigAcceptsThreeLengths := deriveConfig_eq_some_iff

theorem deriveConfig_eq_none {n : Nat} (h128 : n ≠ 128) (h192 : n ≠ 192) (h256 : n ≠ 256) : deriveConfig n = none := by
  rw [deriveConfig, if_neg h128, if_neg h192, if_neg h256]

/-- A word of format C as a number (spec/30_encoding.md R71). -/
theorem toNat_formatC (opc : BitVec 4) (mode : BitVec 2) (dir ivp : Bool) (imm : BitVec 16) :
    (formatC opc mode dir ivp imm).toNat =
      opc.toNat * 2 ^ 28 + mode.toNat * 2 ^ 26 + dir.toNat * 2 ^ 25 + ivp.toNat * 2 ^ 24 + imm.toNat := by
  have hopc := opcField_toNat (formatC opc mode dir ivp imm)
  have hmode := modeField_toNat (formatC opc mode dir ivp imm)
  have hdir := dirBit_toNat (formatC opc mode dir ivp imm)
  have hivp := ivpBit_toNat (formatC opc mode dir ivp imm)
  have hz := zField_toNat (formatC opc mode dir ivp imm)
  have himm := immField_toNat (formatC opc mode dir ivp imm)
  simp only [opcField_formatC, modeField_formatC, dirBit_formatC, ivpBit_formatC, zField_formatC, immField_formatC,
    BitVec.ofNat_eq_ofNat, BitVec.toNat_zero] at hopc hmode hdir hivp hz himm
  omega

/-- The word of CFG is its match with IMM16 added. -/
theorem encode_cfg {bits : Nat} (h : bits < 65536) : encode (.cfg bits) = BitVec.ofNat 32 (0x10000000 + bits) := by
  apply BitVec.eq_of_toNat_eq
  rw [encode, toNat_formatC, BitVec.toNat_ofNat, BitVec.toNat_ofNat, Nat.mod_eq_of_lt h, Nat.mod_eq_of_lt (by omega)]
  rfl

/-- CFG with an accepted length writes its configuration. -/
theorem execCfg_of_eq_some {bits nk nr : Nat} (h : deriveConfig bits = some (nk, nr)) (s : State) :
    execCfg bits s = .next { s with cfg := cfgWord bits nk nr, status := 0, olen := 0 } := by
  rw [execCfg, h]
  rfl

/-- CFG with any other length clears CFG and reports InvalidKeyLength. -/
theorem execCfg_of_eq_none {bits : Nat} (h : deriveConfig bits = none) (s : State) :
    execCfg bits s = .next { s with cfg := 0, status := 1, olen := 0 } := by
  rw [execCfg, h]
  rfl

/-- Settles O13: the words through the encoder, the effects by the two cases of CFG. -/
theorem cfgCommandRule : Obligations.CfgCommandRule :=
  ⟨fun _ hbits => encode_cfg hbits ▸ decode_encode (decide_eq_true hbits),
    fun s => execCfg_of_eq_some (bits := 128) rfl s,
    fun s => execCfg_of_eq_some (bits := 192) rfl s,
    fun s => execCfg_of_eq_some (bits := 256) rfl s,
    fun _ s h128 h192 h256 => execCfg_of_eq_none (deriveConfig_eq_none h128 h192 h256) s⟩

/-! ## The word functions (R114, R115, R117) -/

theorem tWord_of_mod_eq_zero {i nk : Nat} (h : i % nk = 0) (b0 b1 b2 b3 : Byte) :
    tWord i ⟨b0, b1, b2, b3⟩ nk = ⟨sBox b1 ^^^ (rcon (i / nk)).b0, sBox b2, sBox b3, sBox b0⟩ := by
  rw [tWord, if_pos h]
  simp [xorWord, subWord, rotWord, rcon]

theorem tWord_of_mod_eq_four {i nk : Nat} (hnk : nk > 6) (h : i % nk = 4) (w : Word) : tWord i w nk = subWord w := by
  rw [tWord, if_neg (by omega), if_pos ⟨hnk, h⟩]

theorem tWord_eq_self {i nk : Nat} (h0 : i % nk ≠ 0) (h4 : nk ≤ 6 ∨ i % nk ≠ 4) (w : Word) : tWord i w nk = w := by
  rw [tWord, if_neg h0, if_neg (by omega)]

/-- Settles O14: RotWord and SubWord by definition, T case by case. -/
theorem wordFunctionsOfTheExpander : Obligations.WordFunctionsOfTheExpander :=
  ⟨fun _ _ _ _ => rfl, fun _ => rfl, fun _ _ _ _ => rfl, fun _ _ b0 b1 b2 b3 h => tWord_of_mod_eq_zero h b0 b1 b2 b3,
    fun _ _ w hnk h => tWord_of_mod_eq_four hnk h w, fun _ _ w h0 h4 => tWord_eq_self h0 h4 w⟩

/-! ## Expand (R118) -/

/-- A word is determined by its four bytes. -/
theorem wordOf_congr {as bs : List Byte} {i : Nat} (h : ∀ k < 4 * i + 4, as[k]? = bs[k]?) :
    wordOf as i = wordOf bs i := by
  have hbyte : ∀ k < 4 * i + 4, seqByte as k = seqByte bs k := fun k hk => by
    rw [seqByte, seqByte, List.getD_eq_getElem?_getD, List.getD_eq_getElem?_getD, h k hk]
  simp [wordOf, hbyte]

/-- The word appended to a sequence of i words is word i. -/
theorem wordOf_append_wordBytes {bs : List Byte} {i : Nat} (h : bs.length = 4 * i) (w : Word) :
    wordOf (bs ++ wordBytes w) i = w := by
  simp [wordOf, seqByte, wordBytes, ← h]

/-- The loop appends to the key. -/
theorem take_expandLoop (nk : Nat) (key : List Byte) (n : Nat) : (expandLoop nk key n).take key.length = key := by
  induction n with
  | zero => exact List.take_length
  | succ n ih =>
    rw [expandLoop, expandStep, List.take_append_of_le_length (by rw [expandLoop_length]; omega)]
    exact ih

section
variable {key : List Byte} {nk : Nat} (hkey : key.length = 4 * nk)
include hkey

/-- The words of n turns are not touched by later ones. -/
theorem wordOf_expandLoop {n m : Nat} (hnm : n ≤ m) {i : Nat} (hi : i < nk + n) :
    wordOf (expandLoop nk key m) i = wordOf (expandLoop nk key n) i :=
  wordOf_congr fun _ hk => expandLoop_getElem? nk key hnm (by omega)

/-- Turn n makes word Nk + n, from words that stand before it. -/
theorem wordOf_expandLoop_succ (n : Nat) :
    wordOf (expandLoop nk key (n + 1)) (nk + n) =
      xorWord (wordOf (expandLoop nk key n) (nk + n - nk))
        (tWord (nk + n) (wordOf (expandLoop nk key n) (nk + n - 1)) nk) :=
  wordOf_append_wordBytes (by rw [expandLoop_length]; omega) _

/-- The recurrence of the schedule, for every Nk but 0 and every Nr. -/
theorem wordOf_expand {nr i : Nat} (hnk : 0 < nk) (hi : nk ≤ i) (hlt : i < 4 * (nr + 1)) :
    wordOf (expand key nk nr) i =
      xorWord (wordOf (expand key nk nr) (i - nk)) (tWord i (wordOf (expand key nk nr) (i - 1)) nk) := by
  obtain ⟨n, rfl⟩ := Nat.exists_eq_add_of_le hi
  have hnext : wordOf (expand key nk nr) (nk + n) = wordOf (expandLoop nk key (n + 1)) (nk + n) :=
    wordOf_expandLoop hkey (by omega) (by omega)
  have hbefore : ∀ j < nk + n, wordOf (expand key nk nr) j = wordOf (expandLoop nk key n) j := fun _ hj =>
    wordOf_expandLoop hkey (by omega) hj
  rw [hnext, hbefore _ (by omega), hbefore _ (by omega), wordOf_expandLoop_succ hkey]

theorem take_expand (nr : Nat) : (expand key nk nr).take (4 * nk) = key :=
  hkey ▸ take_expandLoop nk key (4 * (nr + 1) - nk)

end

/-- The three sizes leave room for the key in the schedule. -/
theorem nk_pos_and_fits_of_mem {nk nr : Nat} (h : (nk, nr) ∈ [(4, 10), (6, 12), (8, 14)]) :
    0 < nk ∧ nk ≤ 4 * (nr + 1) := by
  simp only [List.mem_cons, Prod.mk.injEq, List.not_mem_nil, or_false] at h
  omega

/-- Settles O15: of the size Nk the three lengths need only that it is not 0 and fits in the schedule. -/
theorem expandFollowsTheRecurrence : Obligations.ExpandFollowsTheRecurrence := by
  intro key nk nr hsize hkey
  obtain ⟨hpos, hle⟩ := nk_pos_and_fits_of_mem hsize
  exact ⟨expand_length hkey hle, take_expand hkey nr, fun i => wordOf_expand hkey hpos⟩

/-! ## KEXP (R119) -/

/-- The state a KEXP leaves when there is a configuration. -/
def kexpResult (s : State) : State :=
  succeed (BitVec.ofNat 32 (16 * (cfgNr s + 1))) (leaveCounters (expandKey s))

theorem execKexp_of_valid {s : State} (h : cfgValid s = true) : execKexp s = .next (kexpResult s) := by
  simpa [h, kexpResult] using execKexp_cases s

theorem execKexp_of_not_valid {s : State} (h : cfgValid s = false) :
    execKexp s = .next { s with status := 1, olen := 0 } := by
  simpa [h, raise_eq, errorCode] using execKexp_cases s

theorem kexpResult_olen {s : State} (h : Configured s) : (kexpResult s).olen.toNat = 16 * (cfgNr s + 1) := by
  have hfits := keySchedule_fits h
  exact Nat.mod_eq_of_lt (by omega)

theorem kexpResult_scheduleWritten {s : State} (h : Configured s) : ScheduleWritten s (kexpResult s) where
  schedule := (expandKey_scheduleWritten h).schedule
  rest := (expandKey_scheduleWritten h).rest

/-- Settles O16: the word through the encoder, the effect by the two cases of KEXP. -/
theorem kexpCommandRule : Obligations.KexpCommandRule := by
  refine ⟨decode_encode (i := .kexp) rfl, fun s => execKexp_of_not_valid, fun s h => ?_⟩
  have hexec := execKexp_of_valid h.fields.1
  exact ⟨kexpResult s, hexec, kexpResult_scheduleWritten h, rfl, kexpResult_olen h, rfl, rfl, rfl, rfl,
    exec_operandsKept (i := .kexp) hexec⟩

/-- The same sequence laid over twice is laid over once. -/
theorem overlay_overlay {n : Nat} (v : Bytes n) (bs : List Byte) : overlay (overlay v bs) bs = overlay v bs := by
  apply Vector.ext
  intro k hk
  simp only [overlay_getElem, List.getD_eq_getElem?_getD]
  cases bs[k]? <;> rfl

/-- A second KEXP lays the same schedule over RK again: KEY and CFG are what they were. -/
theorem kexpResult_kexpResult_rk (s : State) : (kexpResult (kexpResult s)).rk = (kexpResult s).rk :=
  overlay_overlay s.rk (keySchedule s)

/-- Settles O17: KEXP keeps CFG, so the second completes, and it writes what RK already holds. -/
theorem kexpIsDeterministic : Obligations.KexpIsDeterministic := by
  intro s t hconf h
  have hvalid : cfgValid s = true := hconf.fields.1
  obtain rfl : kexpResult s = t := Host.Outcome.next.inj ((execKexp_of_valid hvalid).symm.trans h)
  exact ⟨kexpResult (kexpResult s), execKexp_of_valid (s := kexpResult s) hvalid, kexpResult_kexpResult_rk s⟩

end Sys2Proof.Machine
end

