-- ==== Sys2Proof/Proofs/Round.lean ====
section
/-! PROOFS. The statements of spec/43_round_engine.md: the maps between block and state (O18), the four layers and their
inverses (O19 to O22), InvCipher as the inverse of Cipher (O23), the vector of the source (O24), and the commands ENCB
and DECB (O25 to O27). A layer is known by its cells. The two matrices of the column mixing are circulants, and the
product of two circulants is the circulant of one row, so each inverse law is one product of rows. -/

namespace Sys2Proof.Machine

/-! ## The block and the state (R131, R132) -/

/-- Byte r + 4c of the block is the cell in row r, column c. -/
theorem storeState_getElem_cell (S : StateMatrix) (r c : Fin 4) :
    (storeState S)[r.val + 4 * c.val] = cell S r c := by
  rw [storeState_getElem]
  congr 1 <;> apply Fin.ext <;> simp only <;> omega

@[simp] theorem storeState_loadState (b : Block) : storeState (loadState b) = b := by
  apply Vector.ext
  intro k hk
  simp only [storeState_getElem, cell_loadState, Nat.mod_add_div]

@[simp] theorem loadState_storeState (S : StateMatrix) : loadState (storeState S) = S :=
  matrix_ext fun r c => by rw [cell_loadState, storeState_getElem_cell]

/-- Settles O18: the map cell by cell, in both directions. -/
theorem loadAndStoreAreColumnMajor : Obligations.LoadAndStoreAreColumnMajor :=
  ⟨cell_loadState, storeState_getElem_cell, storeState_loadState, loadState_storeState⟩

/-! ## SubBytes (R133, R134) -/

@[simp] theorem cell_subBytes (S : StateMatrix) (r c : Fin 4) : cell (subBytes S) r c = sBox (cell S r c) :=
  cell_matrixOf _ r c

@[simp] theorem cell_invSubBytes (S : StateMatrix) (r c : Fin 4) : cell (invSubBytes S) r c = invSBox (cell S r c) :=
  cell_matrixOf _ r c

@[simp] theorem invSubBytes_subBytes (S : StateMatrix) : invSubBytes (subBytes S) = S :=
  matrix_ext fun r c => by rw [cell_invSubBytes, cell_subBytes, invSBox_sBox]

@[simp] theorem subBytes_invSubBytes (S : StateMatrix) : subBytes (invSubBytes S) = S :=
  matrix_ext fun r c => by rw [cell_subBytes, cell_invSubBytes, sBox_invSBox]

/-- Settles O19: the bytes are the cells, and the two ROMs are inverse. -/
theorem subBytesActsOnEachByte : Obligations.SubBytesActsOnEachByte := by
  refine ⟨fun S k hk => ?_, fun S => ⟨invSubBytes_subBytes S, subBytes_invSubBytes S⟩⟩
  simp only [storeState_getElem, cell_subBytes, cell_invSubBytes, and_self]

/-! ## ShiftRows (R135, R136) -/

@[simp] theorem cell_shiftRows (S : StateMatrix) (r c : Fin 4) : cell (shiftRows S) r c = cell S r (c + r) :=
  cell_matrixOf _ r c

@[simp] theorem cell_invShiftRows (S : StateMatrix) (r c : Fin 4) : cell (invShiftRows S) r c = cell S r (c - r) :=
  cell_matrixOf _ r c

@[simp] theorem invShiftRows_shiftRows (S : StateMatrix) : invShiftRows (shiftRows S) = S :=
  matrix_ext fun r c => by rw [cell_invShiftRows, cell_shiftRows, sub_add_cancel]

@[simp] theorem shiftRows_invShiftRows (S : StateMatrix) : shiftRows (invShiftRows S) = S :=
  matrix_ext fun r c => by rw [cell_shiftRows, cell_invShiftRows, add_sub_cancel_right]

/-- Four rotations by r columns are a rotation by 4r, and there are four columns. -/
theorem shiftRows_four_times (S : StateMatrix) : shiftRows (shiftRows (shiftRows (shiftRows S))) = S := by
  have hturn : ∀ r c : Fin 4, c + r + r + r + r = c := by decide
  exact matrix_ext fun r c => by simp only [cell_shiftRows, hturn]

/-- On the linear block ShiftRows takes byte k from byte 5k modulo 16. -/
theorem shiftRows_linear (b : Block) :
    storeState (shiftRows (loadState b)) = Vector.ofFn fun k => b[5 * k.val % 16] := by
  apply Vector.ext
  intro k hk
  have hidx : k % 4 + 4 * ((k / 4 + k % 4) % 4) = 5 * k % 16 := by omega
  simp only [storeState_getElem, cell_shiftRows, cell_loadState, Vector.getElem_ofFn, Fin.val_add, hidx]

/-- On the linear block InvShiftRows takes byte k from byte 13k modulo 16: 5 · 13 is 1 modulo 16. -/
theorem invShiftRows_linear (b : Block) :
    storeState (invShiftRows (loadState b)) = Vector.ofFn fun k => b[13 * k.val % 16] := by
  apply Vector.ext
  intro k hk
  have hidx : k % 4 + 4 * ((4 - k % 4 + k / 4) % 4) = 13 * k % 16 := by omega
  simp only [storeState_getElem, cell_invShiftRows, cell_loadState, Vector.getElem_ofFn, Fin.val_sub, hidx]

/-- Settles O20: the two permutations as multiplications of the index, and the inverse laws row by row. -/
theorem shiftRowsPermutesTheBlock : Obligations.ShiftRowsPermutesTheBlock :=
  ⟨shiftRows_linear, invShiftRows_linear,
    fun S => ⟨invShiftRows_shiftRows S, shiftRows_invShiftRows S, shiftRows_four_times S⟩⟩

/-! ## MixColumns (R137, R138) -/

@[simp] theorem wordByte_column (S : StateMatrix) (r c : Fin 4) : wordByte (column S c) r = cell S r c := by
  fin_cases r <;> rfl

theorem cell_mixColumns (S : StateMatrix) (r c : Fin 4) :
    cell (mixColumns S) r c = wordByte (mixColumn (column S c)) r := cell_matrixOf _ r c

theorem cell_invMixColumns (S : StateMatrix) (r c : Fin 4) :
    cell (invMixColumns S) r c = wordByte (invMixColumn (column S c)) r := cell_matrixOf _ r c

/-- The columns are mixed independently. -/
theorem column_mixColumns (S : StateMatrix) (c : Fin 4) : column (mixColumns S) c = mixColumn (column S c) := by
  simp only [column, cell_mixColumns]
  rfl

theorem column_invMixColumns (S : StateMatrix) (c : Fin 4) :
    column (invMixColumns S) c = invMixColumn (column S c) := by
  simp only [column, cell_invMixColumns]
  rfl

/-- The product of the circulant with first row `row` and a column. -/
def circulantMul (row w : Word) : Word :=
  ⟨gmul row.b0 w.b0 ^^^ gmul row.b1 w.b1 ^^^ gmul row.b2 w.b2 ^^^ gmul row.b3 w.b3,
   gmul row.b3 w.b0 ^^^ gmul row.b0 w.b1 ^^^ gmul row.b1 w.b2 ^^^ gmul row.b2 w.b3,
   gmul row.b2 w.b0 ^^^ gmul row.b3 w.b1 ^^^ gmul row.b0 w.b2 ^^^ gmul row.b1 w.b3,
   gmul row.b1 w.b0 ^^^ gmul row.b2 w.b1 ^^^ gmul row.b3 w.b2 ^^^ gmul row.b0 w.b3⟩

/-- The first row of the product of two circulants, which is a circulant again. -/
def circulantRow (m n : Word) : Word :=
  ⟨gmul m.b0 n.b0 ^^^ gmul m.b1 n.b3 ^^^ gmul m.b2 n.b2 ^^^ gmul m.b3 n.b1,
   gmul m.b0 n.b1 ^^^ gmul m.b1 n.b0 ^^^ gmul m.b2 n.b3 ^^^ gmul m.b3 n.b2,
   gmul m.b0 n.b2 ^^^ gmul m.b1 n.b1 ^^^ gmul m.b2 n.b0 ^^^ gmul m.b3 n.b3,
   gmul m.b0 n.b3 ^^^ gmul m.b1 n.b2 ^^^ gmul m.b2 n.b1 ^^^ gmul m.b3 n.b0⟩

theorem circulantMul_circulantMul (m n w : Word) :
    circulantMul m (circulantMul n w) = circulantMul (circulantRow m n) w := by
  simp only [circulantMul, circulantRow, gmul_xor_left, gmul_xor_right, gmul_assoc, Word.mk.injEq]
  refine ⟨?_, ?_, ?_, ?_⟩ <;> ac_rfl

theorem gmul_zero_left (b : Byte) : gmul 0 b = 0 := (gmul_comm 0 b).trans (gmul_zero_right b)

/-- The circulant with first row (01, 00, 00, 00) is the identity. -/
theorem circulantMul_one (w : Word) : circulantMul ⟨0x01, 0, 0, 0⟩ w = w := by
  simp only [circulantMul, gmul_one_left, gmul_zero_left]
  simp

theorem mixColumn_eq_circulantMul (w : Word) : mixColumn w = circulantMul ⟨0x02, 0x03, 0x01, 0x01⟩ w := by
  simp only [mixColumn, circulantMul, gmul_one_left]

theorem invMixColumn_eq_circulantMul (w : Word) : invMixColumn w = circulantMul ⟨0x0e, 0x0b, 0x0d, 0x09⟩ w := rfl

/-- The product of the two matrices has first row (01, 00, 00, 00). -/
theorem invMixColumn_mixColumn (w : Word) : invMixColumn (mixColumn w) = w := by
  have hrow : circulantRow ⟨0x0e, 0x0b, 0x0d, 0x09⟩ ⟨0x02, 0x03, 0x01, 0x01⟩ = ⟨0x01, 0, 0, 0⟩ := by decide
  rw [mixColumn_eq_circulantMul, invMixColumn_eq_circulantMul, circulantMul_circulantMul, hrow, circulantMul_one]

theorem mixColumn_invMixColumn (w : Word) : mixColumn (invMixColumn w) = w := by
  have hrow : circulantRow ⟨0x02, 0x03, 0x01, 0x01⟩ ⟨0x0e, 0x0b, 0x0d, 0x09⟩ = ⟨0x01, 0, 0, 0⟩ := by decide
  rw [mixColumn_eq_circulantMul, invMixColumn_eq_circulantMul, circulantMul_circulantMul, hrow, circulantMul_one]

@[simp] theorem invMixColumns_mixColumns (S : StateMatrix) : invMixColumns (mixColumns S) = S :=
  matrix_ext fun r c => by rw [cell_invMixColumns, column_mixColumns, invMixColumn_mixColumn, wordByte_column]

@[simp] theorem mixColumns_invMixColumns (S : StateMatrix) : mixColumns (invMixColumns S) = S :=
  matrix_ext fun r c => by rw [cell_mixColumns, column_invMixColumns, mixColumn_invMixColumn, wordByte_column]

/-- Row i of the circulant holds its first row rotated by i places (R137). -/
theorem wordByte_circulantMul (row : Vector Byte 4) (w : Word) (i : Fin 4) :
    wordByte (circulantMul ⟨row[0], row[1], row[2], row[3]⟩ w) i =
      gmul row[(0 - i : Fin 4)] w.b0 ^^^ gmul row[(1 - i : Fin 4)] w.b1 ^^^ gmul row[(2 - i : Fin 4)] w.b2 ^^^
        gmul row[(3 - i : Fin 4)] w.b3 := by
  fin_cases i <;> rfl

/-- Settles O21: the two layers as circulants, and the inverse laws by the product of the two first rows. -/
theorem mixColumnsAreInverseCirculants : Obligations.MixColumnsAreInverseCirculants := by
  refine ⟨fun S i c => ?_, fun S i c => ?_, fun S => ⟨invMixColumns_mixColumns S, mixColumns_invMixColumns S⟩⟩
  · rw [cell_mixColumns, mixColumn_eq_circulantMul]
    exact wordByte_circulantMul #v[0x02, 0x03, 0x01, 0x01] (column S c) i
  · rw [cell_invMixColumns, invMixColumn_eq_circulantMul]
    exact wordByte_circulantMul #v[0x0e, 0x0b, 0x0d, 0x09] (column S c) i

/-! ## AddRoundKey (R139) -/

@[simp] theorem cell_addRoundKey (S : StateMatrix) (rk : List Byte) (round : Nat) (r c : Fin 4) :
    cell (addRoundKey S rk round) r c = cell S r c ^^^ seqByte rk (16 * round + 4 * c.val + r.val) :=
  cell_matrixOf _ r c

/-- On the linear block the slice of the round is xored byte by byte. -/
theorem addRoundKey_linear (S : StateMatrix) (rk : List Byte) (round k : Nat) (hk : k < 16) :
    (storeState (addRoundKey S rk round))[k] = (storeState S)[k] ^^^ seqByte rk (16 * round + k) := by
  have hidx : 16 * round + 4 * (k / 4) + k % 4 = 16 * round + k := by omega
  rw [storeState_getElem, cell_addRoundKey, hidx, storeState_getElem]

@[simp] theorem addRoundKey_addRoundKey (S : StateMatrix) (rk : List Byte) (round : Nat) :
    addRoundKey (addRoundKey S rk round) rk round = S :=
  matrix_ext fun r c => by
    rw [cell_addRoundKey, cell_addRoundKey, BitVec.xor_assoc, BitVec.xor_self, BitVec.xor_zero]

theorem seqByte_of_lt {bs : List Byte} {k : Nat} (h : k < bs.length) : seqByte bs k = bs[k] :=
  List.getD_eq_getElem bs 0 h

/-- Settles O22: the byte law of the layer, and a byte xored twice. -/
theorem addRoundKeyIsLinearAndSelfInverse : Obligations.AddRoundKeyIsLinearAndSelfInverse :=
  ⟨fun S rk round k hk hin => seqByte_of_lt hin ▸ addRoundKey_linear S rk round k hk, addRoundKey_addRoundKey⟩

/-! ## Cipher and InvCipher (R145, R146) -/

@[simp] theorem invCipherRound_cipherRound (rk : List Byte) (round : Nat) (S : StateMatrix) :
    invCipherRound rk round (cipherRound rk round S) = S := by
  rw [invCipherRound, cipherRound, addRoundKey_addRoundKey, invMixColumns_mixColumns, invShiftRows_shiftRows,
    invSubBytes_subBytes]

@[simp] theorem cipherRound_invCipherRound (rk : List Byte) (round : Nat) (S : StateMatrix) :
    cipherRound rk round (invCipherRound rk round S) = S := by
  rw [cipherRound, invCipherRound, subBytes_invSubBytes, shiftRows_invShiftRows, mixColumns_invMixColumns,
    addRoundKey_addRoundKey]

/-- The last full round is the first undone. -/
@[simp] theorem invCipherRounds_cipherRounds (rk : List Byte) (n : Nat) (S : StateMatrix) :
    invCipherRounds rk n (cipherRounds rk n S) = S := by
  induction n with
  | zero => rfl
  | succ n ih => rw [cipherRounds, invCipherRounds, invCipherRound_cipherRound, ih]

@[simp] theorem cipherRounds_invCipherRounds (rk : List Byte) (n : Nat) (S : StateMatrix) :
    cipherRounds rk n (invCipherRounds rk n S) = S := by
  induction n generalizing S with
  | zero => rfl
  | succ n ih => rw [cipherRounds, invCipherRounds, ih, cipherRound_invCipherRound]

@[simp] theorem invCipher_cipher (x : Block) (rk : List Byte) (nr : Nat) : invCipher (cipher x rk nr) rk nr = x := by
  simp only [invCipher, cipher, loadState_storeState, addRoundKey_addRoundKey, invShiftRows_shiftRows,
    invSubBytes_subBytes, invCipherRounds_cipherRounds, storeState_loadState]

@[simp] theorem cipher_invCipher (x : Block) (rk : List Byte) (nr : Nat) : cipher (invCipher x rk nr) rk nr = x := by
  simp only [invCipher, cipher, loadState_storeState, addRoundKey_addRoundKey, shiftRows_invShiftRows,
    subBytes_invSubBytes, cipherRounds_invCipherRounds, storeState_loadState]

/-- Settles O23: layer by layer, then round by round. -/
theorem invCipherInvertsCipher : Obligations.InvCipherInvertsCipher :=
  fun x rk nr => ⟨invCipher_cipher x rk nr, cipher_invCipher x rk nr⟩

theorem decryptBlock_encryptBlock (x : Block) (key : List Byte) (nk nr : Nat) :
    decryptBlock (encryptBlock x key nk nr) key nk nr = x := invCipher_cipher x _ nr

/-- Settles O24: the encryption is evaluated, and the way back is the inverse law. -/
theorem sourceVector : Obligations.SourceVector := by
  have hencrypt : encryptBlock (Vector.replicate 16 0) (List.replicate 16 0) 4 10 =
      #v[0x66, 0xe9, 0x4b, 0xd4, 0xef, 0x8a, 0x2c, 0x3b, 0x88, 0x4c, 0xfa, 0x59, 0xca, 0x34, 0x2b, 0x2e] := by
    decide +kernel
  exact ⟨hencrypt, hencrypt ▸ decryptBlock_encryptBlock ..⟩

/-! ## ENCB and DECB (R150, R151) -/

section
variable {s : State} (h : Configured s) (f : Block → List Byte → Nat → Block)
include h

theorem blockCommand_of_configured : blockCommand f s = .next (blockResult f s) := by
  simpa [h.fields.1] using blockCommand_cases f s

/-- The block a single-block command leaves in OBUF[0..15]. -/
theorem outBlock_blockResult : outBlock (blockResult f s) 0 = f (memRead s 0) (keySchedule s) (cfgNr s) := by
  rw [← schedule_expandKey h]
  exact outBlock_memWrite_self 0 _ (expandKey s)

theorem blockResult_outputDone :
    OutputDone s (blockResult f s) 16 [f (memRead s 0) (keySchedule s) (cfgNr s)] where
  status := rfl
  olen := rfl
  output := congrArg (fun b => [b]) (outBlock_blockResult h f)
  obuf_frame a ha := by
    have hbeyond : ¬ (0 ≤ a ∧ a < 0 + 16) := by simpa using ha
    exact (obufByte_memWrite (expandKey s) 0 _ a).trans (dif_neg hbeyond)
  rk := ⟨(expandKey_scheduleWritten h).schedule, (expandKey_scheduleWritten h).rest⟩
  cfg := rfl
  operands := operandsKept_coreWrite s ..

end

/-- The rule of a command that is the single-block command of f under the schedule of the key. -/
theorem blockRule_of_blockCommand {cmd : Instr} {f : Block → List Byte → Nat → Block}
    (hexec : ∀ s, exec cmd s = blockCommand f s) :
    BlockRule cmd fun blk key nk nr => f blk (expand key nk nr) nr where
  no_config s hs := by
    rw [hexec]
    simpa [hs, raise_eq, errorCode] using blockCommand_cases f s
  success s h := ⟨blockResult f s, (hexec s).trans (blockCommand_of_configured h f), blockResult_outputDone h f, rfl⟩

/-- Settles O25: the word through the encoder, the effect by the rule of the single-block command. -/
theorem encbCommandRule : Obligations.EncbCommandRule :=
  ⟨decode_encode (i := .encb) rfl, blockRule_of_blockCommand (f := cipher) fun _ => rfl⟩

/-- Settles O26: as ENCB, with InvCipher. -/
theorem decbCommandRule : Obligations.DecbCommandRule :=
  ⟨decode_encode (i := .decb) rfl, blockRule_of_blockCommand (f := invCipher) fun _ => rfl⟩

theorem keySchedule_congr {s t : State} (hcfg : t.cfg = s.cfg) (hkey : t.key = s.key) :
    keySchedule t = keySchedule s := by
  simp only [keySchedule, keyOperand, hkey, cfgNk_congr hcfg, cfgNr_congr hcfg]

/-- Settles O27: both commands run under one schedule, and DECB reads the block that ENCB wrote. -/
theorem decbUndoesEncb : Obligations.DecbUndoesEncb := by
  intro s t s' h hencb hcfg hkey hread
  obtain rfl : blockResult cipher s = t :=
    Host.Outcome.next.inj ((blockCommand_of_configured h cipher).symm.trans hencb)
  have h' : Configured s' := by unfold Configured; rwa [hcfg]
  refine ⟨blockResult invCipher s', blockCommand_of_configured h' invCipher, rfl, fun a ha => ?_⟩
  have hin : memRead s' 0 = outBlock (blockResult cipher s) 0 := by
    apply Vector.ext
    intro k hk
    simp only [memRead, outBlock, Vector.getElem_ofFn]
    exact hread _ (by omega)
  have hout : outBlock (blockResult invCipher s') 0 = memRead s 0 := by
    rw [outBlock_blockResult h', hin, outBlock_blockResult h, keySchedule_congr hcfg hkey, cfgNr_congr hcfg]
    exact invCipher_cipher ..
  simpa [outBlock, memRead] using congrArg (·[a]) hout

end Sys2Proof.Machine
end

