-- ==== Sys2Proof/Proofs/Modes.lean ====
section
/-! PROOFS. The statements of spec/44_modes.md: XorBlock (O28), the mode functions (O29 to O32), the six commands (O33 to
O38), the IVP bit of ECB (O39) and the round trip on the hardware (O40). The CBC and CFB functions are runs of one
chained turn, whose new chain is the output block (encryption) or the input block (decryption), so each law is proved of
runs. The commands are one shape: what the loop leaves is stated once, for any turn that works under a fixed schedule. -/

namespace Sys2Proof.Machine

/-! ## XorBlock (R161) -/

@[simp] theorem xorBlock_getElem (a b : Block) (k : Nat) (h : k < 16) : (xorBlock a b)[k] = a[k] ^^^ b[k] := by
  simp [xorBlock]

theorem xorBlock_self (a : Block) : xorBlock a a = Vector.replicate 16 0 := by
  apply Vector.ext
  intro k hk
  simp

theorem xorBlock_zero (a : Block) : xorBlock a (Vector.replicate 16 0) = a := by
  apply Vector.ext
  intro k hk
  simp

@[simp] theorem xorBlock_xorBlock (a b : Block) : xorBlock (xorBlock a b) b = a := by
  apply Vector.ext
  intro k hk
  simp

/-- Settles O28: every law byte by byte. -/
theorem xorBlockLaws : Obligations.XorBlockLaws :=
  ⟨xorBlock_getElem, fun a => ⟨xorBlock_self a, xorBlock_zero a⟩, xorBlock_xorBlock⟩

/-! ## Runs of a chained turn -/

section
variable (out newChain : Block → Block → Block) (c : Block) (xs : List Block)

theorem chainRun_take (n : Nat) : (chainRun out newChain c xs).take n = chainRun out newChain c (xs.take n) := by
  induction xs generalizing c n with
  | nil => simp [chainRun]
  | cons x xs ih =>
    cases n with
    | zero => rfl
    | succ n => simp [chainRun, ih]

/-- Each output block is the turn of its input block and the chaining value after the blocks before it. -/
theorem chainRun_getElem? {xs : List Block} {b : Nat} {x : Block} (h : xs[b]? = some x) :
    (chainRun out newChain c xs)[b]? = some (out x (chainAfter out newChain c (xs.take b))) := by
  induction xs generalizing c b with
  | nil => cases h
  | cons y ys ih =>
    cases b with
    | zero =>
      obtain rfl : y = x := Option.some.inj h
      rfl
    | succ b => exact ih (newChain y (out y c)) h

/-- Where the new chain is the output block, the chaining value is the last output block. -/
theorem chainAfter_output : chainAfter out (fun _ o => o) c xs = (chainRun out (fun _ o => o) c xs).getLastD c := by
  induction xs generalizing c with
  | nil => rfl
  | cons x xs ih => rw [chainAfter, chainRun, List.getLastD_cons, ih]

/-- Where the new chain is the input block, the chaining value is the last input block. -/
theorem chainAfter_input : chainAfter out (fun x _ => x) c xs = xs.getLastD c := by
  induction xs generalizing c with
  | nil => rfl
  | cons x xs ih => rw [chainAfter, List.getLastD_cons, ih]

end

/-- The last of the first b entries, c where there is none, is entry b of the list with c in front. -/
theorem getLastD_take_of_cons_getElem? {l : List Block} {c p : Block} {b : Nat} (h : (c :: l)[b]? = some p) :
    (l.take b).getLastD c = p := by
  cases b with
  | zero => exact Option.some.inj h
  | succ b =>
    have hp : l[b]? = some p := h
    rw [List.take_add_one, hp, Option.toList_some, List.getLastD_concat]

section
variable (out : Block → Block → Block) (c : Block) {xs : List Block} {b : Nat} {x p : Block} (h : xs[b]? = some x)
include h

theorem chainRun_output_getElem? (hp : (c :: chainRun out (fun _ o => o) c xs)[b]? = some p) :
    (chainRun out (fun _ o => o) c xs)[b]? = some (out x p) := by
  rw [chainRun_getElem? out _ c h, chainAfter_output, ← chainRun_take, getLastD_take_of_cons_getElem? hp]

theorem chainRun_input_getElem? (hp : (c :: xs)[b]? = some p) :
    (chainRun out (fun x _ => x) c xs)[b]? = some (out x p) := by
  rw [chainRun_getElem? out _ c h, chainAfter_input, getLastD_take_of_cons_getElem? hp]

end

/-- The initial chaining value reaches the first output block alone where the new chain is the input block. -/
theorem chainRun_input_tail (out : Block → Block → Block) (c c' : Block) (xs : List Block) :
    (chainRun out (fun x _ => x) c xs).tail = (chainRun out (fun x _ => x) c' xs).tail := by
  cases xs with
  | nil => rfl
  | cons x xs => rfl

/-- A run that feeds back its input undoes a run that feeds back its output, when its turn undoes the other's turn: both
chain the same blocks. -/
theorem chainRun_input_output {enc dec : Block → Block → Block} (hturn : ∀ x c, dec (enc x c) c = x) (c : Block)
    (xs : List Block) : chainRun dec (fun x _ => x) c (chainRun enc (fun _ o => o) c xs) = xs := by
  induction xs generalizing c with
  | nil => rfl
  | cons x xs ih => rw [chainRun, chainRun, hturn, ih]

/-! ## The mode functions (R165, R172 to R174) -/

/-- Settles O29: lengths and entries of a map and of a run. -/
theorem modesHaveTheirClosedForms : Obligations.ModesHaveTheirClosedForms := by
  refine ⟨fun rk nr iv xs => ?_, fun rk nr iv xs b x p h => ?_⟩
  · simp only [ecbEnc_eq_map, ecbDec_eq_map, cbcEnc_eq_run, cbcDec_eq_run, cfbEnc_eq_run, cfbDec_eq_run,
      chainRun_length, List.length_map, and_self]
  · simp only [ecbEnc_eq_map, ecbDec_eq_map, cbcEnc_eq_run, cbcDec_eq_run, cfbEnc_eq_run, cfbDec_eq_run,
      List.getElem?_map, h, Option.map_some, true_and]
    exact ⟨chainRun_output_getElem? _ iv h, chainRun_input_getElem? _ iv h, chainRun_output_getElem? _ iv h,
      chainRun_input_getElem? _ iv h⟩

theorem ecbDec_ecbEnc (rk : List Byte) (nr : Nat) (xs : List Block) : ecbDec rk nr (ecbEnc rk nr xs) = xs := by
  rw [ecbEnc_eq_map, ecbDec_eq_map, List.map_map]
  exact List.map_id'' (fun x => invCipher_cipher x rk nr) xs

theorem cbcDec_cbcEnc (rk : List Byte) (nr : Nat) (iv : Block) (xs : List Block) :
    cbcDec rk nr iv (cbcEnc rk nr iv xs) = xs := by
  rw [cbcEnc_eq_run, cbcDec_eq_run]
  exact chainRun_input_output (fun x c => by rw [invCipher_cipher, xorBlock_xorBlock]) iv xs

theorem cfbDec_cfbEnc (rk : List Byte) (nr : Nat) (iv : Block) (xs : List Block) :
    cfbDec rk nr iv (cfbEnc rk nr iv xs) = xs := by
  rw [cfbEnc_eq_run, cfbDec_eq_run]
  exact chainRun_input_output (fun x c => xorBlock_xorBlock x (cipher c rk nr)) iv xs

/-- Settles O30, mode by mode. -/
theorem modesRoundTrip : Obligations.ModesRoundTrip :=
  fun rk nr iv xs => ⟨ecbDec_ecbEnc rk nr xs, cbcDec_cbcEnc rk nr iv xs, cfbDec_cfbEnc rk nr iv xs⟩

/-- Settles O31: a run of the first input blocks is the first blocks of the run. -/
theorem outputBlocksDependOnlyOnEarlierInput : Obligations.OutputBlocksDependOnlyOnEarlierInput := by
  refine ⟨fun rk nr iv xs n => ?_, fun rk nr iv iv' xs => ?_⟩
  · simp only [cbcEnc_eq_run, cbcDec_eq_run, cfbEnc_eq_run, cfbDec_eq_run, chainRun_take, and_self]
  · simp only [cbcDec_eq_run, cfbDec_eq_run]
    exact ⟨chainRun_input_tail _ iv iv' xs, chainRun_input_tail _ iv iv' xs⟩

/-- Settles O32: a run is continued from its chaining value, which is the last block fed back. -/
theorem messagesContinueFromTheLastBlock : Obligations.MessagesContinueFromTheLastBlock := by
  intro rk nr iv xs ys
  simp only [cbcEnc_eq_run, cbcDec_eq_run, cfbEnc_eq_run, cfbDec_eq_run, chainRun_append, chainAfter_output,
    chainAfter_input, and_self]

/-! ## What the loop of a command leaves -/

/-- A turn keeps what the turns take the schedule and Nr from. -/
theorem BlockTurn.keeps_schedule {turn : Nat → State → State} (ht : BlockTurn turn) (b : Nat) (s : State) :
    schedule (turn b s) = schedule s ∧ cfgNr (turn b s) = cfgNr s := by
  obtain ⟨v, c, h⟩ := ht b s
  rw [h]
  exact ⟨rfl, rfl⟩

/-- The loop of a turn that looks up the schedule and Nr is the loop of that turn under those it began with. -/
theorem forBlocks_eq_of_schedule {turn : Nat → State → State} (ht : BlockTurn turn)
    {fixed : List Byte → Nat → Nat → State → State} (hturn : ∀ b s, turn b s = fixed (schedule s) (cfgNr s) b s)
    (n : Nat) (s : State) : forBlocks turn n s = forBlocks (fixed (schedule s) (cfgNr s)) n s := by
  refine forBlocks_congr (P := fun t => schedule t = schedule s ∧ cfgNr t = cfgNr s) ?_ ?_ n ⟨rfl, rfl⟩
  · rintro b t ⟨hrk, hnr⟩
    obtain ⟨hrk', hnr'⟩ := ht.keeps_schedule b t
    exact ⟨hrk'.trans hrk, hnr'.trans hnr⟩
  · rintro b t ⟨hrk, hnr⟩
    rw [hturn, hrk, hnr]

theorem forBlocks_rk {turn : Nat → State → State} (ht : BlockTurn turn) (n : Nat) (s : State) :
    (forBlocks turn n s).rk = s.rk := by
  refine forBlocks_keeps (P := fun t => t.rk = s.rk) (fun b t hrk => ?_) n rfl
  obtain ⟨v, c, h⟩ := ht b t
  rw [h]
  exact hrk

theorem outBlocks_length (t : State) (n : Nat) : (outBlocks t n).length = n := by
  rw [outBlocks, List.length_map, List.length_range]

/-- What `OutputDone` says does not depend on ST, CHAIN, the counters and the draws. -/
theorem OutputDone.hidden {s t : State} {olen : Reg32} {out : List Block} (h : OutputDone s t olen out)
    (st : StateMatrix) (chain : Block) (counters : Counters) (draws : Nat) :
    OutputDone s { t with st := st, chain := chain, counters := counters, draws := draws } olen out where
  status := h.status
  olen := h.olen
  output := h.output
  obuf_frame := h.obuf_frame
  rk := ⟨h.rk.schedule, h.rk.rest⟩
  cfg := h.cfg
  operands := h.operands.trans (operandsKept_coreWrite t ..)

/-- The state after the expansion and the loop of a message command whose loop begins with c in CHAIN. -/
def loopResult (turn : Nat → State → State) (c : Block) (s : State) : State :=
  forBlocks turn (blockCount s) (setChain c (expandKey s))

theorem plainWork_eq_loopResult (turn : Nat → State → State) (s : State) :
    plainWork turn s = leaveCounters (leaveSt (loopResult turn s.chain s)) := rfl

theorem chainWork_eq_loopResult (turn : Nat → State → State) (s : State) :
    chainWork turn s = leaveCounters (leaveSt (leaveChain (loopResult turn s.iv s))) := rfl

section
variable {s : State} (h : Configured s) {turn : Nat → State → State}
include h

/-- After its loop a message command is done, with the blocks the loop left in OBUF. -/
theorem loopResult_outputDone (ht : BlockTurn turn) (c : Block) :
    OutputDone s (succeed s.len (loopResult turn c s)) s.len (outBlocks (loopResult turn c s) (blockCount s)) := by
  have hexpand : WorkFrame s.len.toNat s (setChain c (expandKey s)) := workFrame_hidden _ s ..
  have hloop : WorkFrame (16 * blockCount s) (setChain c (expandKey s)) (loopResult turn c s) :=
    forBlocks_workFrame ht (blockCount s) _
  have hframe := hexpand.trans (hloop.mono (blockCount_mul_le s))
  have hrk : (loopResult turn c s).rk = (expandKey s).rk := forBlocks_rk ht (blockCount s) _
  have hschedule := expandKey_scheduleWritten h
  exact {
    status := rfl
    olen := rfl
    output := by rw [outBlocks_length]; rfl
    obuf_frame := fun a ha => by
      rw [outBlocks_length] at ha
      exact forBlocks_obuf_beyond ht (blockCount s) (setChain c (expandKey s)) ha
    rk := ⟨(congrArg (firstBytes · _) hrk).trans hschedule.schedule,
      fun k hk => (congrArg (·[k]?) hrk).trans (hschedule.rest k hk)⟩
    cfg := hframe.cfg
    operands := hframe.operands.trans (operandsKept_coreWrite _ ..) }

/-- The work of a mode without chaining: each block through f, under the schedule of the key. -/
theorem plainWork_outputDone {f : List Byte → Nat → Block → Block}
    (hturn : ∀ b u, turn b u = plainTurn (f (schedule u) (cfgNr u)) b u) :
    OutputDone s (succeed s.len (plainWork turn s)) s.len ((inBlocks s).map (f (keySchedule s) (cfgNr s))) := by
  have ht : BlockTurn turn := fun b u => hturn b u ▸ plainTurn_blockWrite _ b u
  have hout : outBlocks (loopResult turn s.chain s) (blockCount s) =
      (inBlocks s).map (f (keySchedule s) (cfgNr s)) := by
    rw [loopResult, forBlocks_eq_of_schedule ht (fixed := fun rk nr => plainTurn (f rk nr)) hturn, plainLoop_spec,
      ← schedule_expandKey h]
    rfl
  rw [plainWork_eq_loopResult, ← hout]
  exact (loopResult_outputDone h ht s.chain).hidden ..

/-- The work of a chained mode: the run of its turn from IV, under the schedule of the key. -/
theorem chainWork_outputDone {f : List Byte → Nat → Block → Block → Block} {newChain : Block → Block → Block}
    (hturn : ∀ b u, turn b u = chainTurn (f (schedule u) (cfgNr u)) newChain b u) :
    OutputDone s (succeed s.len (chainWork turn s)) s.len
      (chainRun (f (keySchedule s) (cfgNr s)) newChain s.iv (inBlocks s)) := by
  have ht : BlockTurn turn := fun b u => hturn b u ▸ chainTurn_blockWrite _ _ b u
  have hout : outBlocks (loopResult turn s.iv s) (blockCount s) =
      chainRun (f (keySchedule s) (cfgNr s)) newChain s.iv (inBlocks s) := by
    rw [loopResult, forBlocks_eq_of_schedule ht (fixed := fun rk nr => chainTurn (f rk nr) newChain) hturn,
      (chainLoop_spec ..).1, ← schedule_expandKey h]
    rfl
  rw [chainWork_eq_loopResult, ← hout]
  exact (loopResult_outputDone h ht s.iv).hidden ..

end

/-! ## The message commands (R166 to R171) -/

/-- With LEN within BUF_BYTES a message command reports its first error or does its work. -/
theorem messageCommand_within (needsIV ivp : Bool) (work : State → State) {s : State} (h : s.len.toNat ≤ s.bufBytes) :
    messageCommand needsIV ivp work s =
      if cfgValid s = false then .next { s with status := 1, olen := 0 }
      else if s.len.toNat % 16 ≠ 0 then .next { s with status := 2, olen := 0 }
      else if needsIV = true ∧ ivp = false then .next { s with status := 3, olen := 0 }
      else .next (succeed s.len (work s)) := by
  rcases messageCommand_cases needsIV ivp work s with
    ⟨hv, he⟩ | ⟨hv, hl, he⟩ | ⟨hv, hl, hn, hi, he⟩ | ⟨hv, hl, hi, -, he⟩ | ⟨-, -, -, hbeyond, -⟩
  · rw [he, if_pos hv]; rfl
  · rw [he, if_neg (by simp [hv]), if_pos hl]; rfl
  · rw [he, if_neg (by simp [hv]), if_neg (by simp [hl]), if_pos ⟨hn, hi⟩]; rfl
  · rw [he, if_neg (by simp [hv]), if_neg (by simp [hl]), if_neg fun ⟨hn, hf⟩ => by simp [hi hn] at hf]
  · exact absurd h (Nat.not_le.2 hbeyond)

/-- A command of the message shape has the message rule when its work, in a configured state, leaves its output, and
leaves CHAIN alone where the mode needs no IV. -/
theorem messageRule_of_messageCommand {cmd : Bool → Instr} {needsIV : Bool} {work : State → State}
    {out : State → List Block} (hexec : ∀ ivp s, exec (cmd ivp) s = messageCommand needsIV ivp work s)
    (hwork : ∀ s, Configured s → OutputDone s (succeed s.len (work s)) s.len (out s))
    (hchain : needsIV = false → ∀ s, (work s).chain = s.chain) : MessageRule cmd needsIV out where
  no_config ivp s hfits hv := by rw [hexec, messageCommand_within _ _ _ hfits, if_pos hv]
  length_error ivp s hfits hv hl := by
    rw [hexec, messageCommand_within _ _ _ hfits, if_neg (by simp [hv]), if_pos hl]
  missing_iv hn s hfits hv hl := by
    rw [hexec, messageCommand_within _ _ _ hfits, if_neg (by simp [hv]), if_neg (by simp [hl]), if_pos ⟨hn, rfl⟩]
  success ivp s hfits h hl hi := by
    refine ⟨succeed s.len (work s), ?_, hwork s h, fun hn => hchain hn s⟩
    rw [hexec, messageCommand_within _ _ _ hfits, if_neg (by simp [h.fields.1]), if_neg (by simp [hl]),
      if_neg fun ⟨hn, hf⟩ => by simp [hi hn] at hf]

theorem plainCommand_messageRule {cmd : Bool → Instr} {turn : Nat → State → State} {f : List Byte → Nat → Block → Block}
    (hexec : ∀ ivp s, exec (cmd ivp) s = messageCommand false ivp (plainWork turn) s)
    (hturn : ∀ b u, turn b u = plainTurn (f (schedule u) (cfgNr u)) b u) :
    MessageRule cmd false fun s => (inBlocks s).map (f (keySchedule s) (cfgNr s)) :=
  messageRule_of_messageCommand hexec (fun _ h => plainWork_outputDone h hturn) fun _ =>
    plainWork_chain fun b u => by rw [hturn, plainTurn_chain]

theorem chainCommand_messageRule {cmd : Bool → Instr} {turn : Nat → State → State}
    {f : List Byte → Nat → Block → Block → Block} {newChain : Block → Block → Block}
    (hexec : ∀ ivp s, exec (cmd ivp) s = messageCommand true ivp (chainWork turn) s)
    (hturn : ∀ b u, turn b u = chainTurn (f (schedule u) (cfgNr u)) newChain b u) :
    MessageRule cmd true fun s => chainRun (f (keySchedule s) (cfgNr s)) newChain s.iv (inBlocks s) :=
  messageRule_of_messageCommand hexec (fun _ h => chainWork_outputDone h hturn) nofun

/-- Settles O33: the words through the encoder, the effect by the rule of the commands without chaining. -/
theorem encEcbCommandRule : Obligations.EncEcbCommandRule := by
  refine ⟨decode_encode (i := .encEcb false) rfl, decode_encode (i := .encEcb true) rfl, ?_⟩
  simp only [ecbEnc_eq_map]
  exact plainCommand_messageRule (f := fun rk nr x => cipher x rk nr) (fun _ _ => rfl) fun _ _ => rfl

/-- Settles O34: the words through the encoder, the effect by the rule of the chained commands. -/
theorem encCbcCommandRule : Obligations.EncCbcCommandRule := by
  refine ⟨decode_encode (i := .encCbc false) rfl, decode_encode (i := .encCbc true) rfl, ?_⟩
  simp only [cbcEnc_eq_run]
  exact chainCommand_messageRule (f := fun rk nr x c => cipher (xorBlock x c) rk nr) (fun _ _ => rfl) fun _ _ => rfl

/-- Settles O35: as ENC.CBC, with the turn of CFB. -/
theorem encCfbCommandRule : Obligations.EncCfbCommandRule := by
  refine ⟨decode_encode (i := .encCfb false) rfl, decode_encode (i := .encCfb true) rfl, ?_⟩
  simp only [cfbEnc_eq_run]
  exact chainCommand_messageRule (f := fun rk nr x c => xorBlock x (cipher c rk nr)) (fun _ _ => rfl) fun _ _ => rfl

/-- Settles O36: as ENC.ECB, with InvCipher. -/
theorem decEcbCommandRule : Obligations.DecEcbCommandRule := by
  refine ⟨decode_encode (i := .decEcb false) rfl, decode_encode (i := .decEcb true) rfl, ?_⟩
  simp only [ecbDec_eq_map]
  exact plainCommand_messageRule (f := fun rk nr x => invCipher x rk nr) (fun _ _ => rfl) fun _ _ => rfl

/-- Settles O37: as ENC.CBC, with InvCipher before the xor and the input block as the new chain. -/
theorem decCbcCommandRule : Obligations.DecCbcCommandRule := by
  refine ⟨decode_encode (i := .decCbc false) rfl, decode_encode (i := .decCbc true) rfl, ?_⟩
  simp only [cbcDec_eq_run]
  exact chainCommand_messageRule (f := fun rk nr x c => xorBlock (invCipher x rk nr) c) (fun _ _ => rfl) fun _ _ => rfl

/-- Settles O38: as ENC.CFB, with the input block as the new chain. -/
theorem decCfbCommandRule : Obligations.DecCfbCommandRule := by
  refine ⟨decode_encode (i := .decCfb false) rfl, decode_encode (i := .decCfb true) rfl, ?_⟩
  simp only [cfbDec_eq_run]
  exact chainCommand_messageRule (f := fun rk nr x c => xorBlock x (cipher c rk nr)) (fun _ _ => rfl) fun _ _ => rfl

/-! ## The IVP bit of the ECB commands (R166, R169) -/

/-- The checks of a mode that needs no IV do not read the IVP bit. -/
theorem msgChecks_ecb (ivp ivp' : Bool) (s : State) : msgChecks false ivp s = msgChecks false ivp' s := by
  simp [msgChecks]

theorem messageCommand_ecb (ivp ivp' : Bool) (work : State → State) (s : State) :
    messageCommand false ivp work s = messageCommand false ivp' work s := by
  rw [messageCommand, msgChecks_ecb ivp ivp', messageCommand]

/-- Settles O39: both values of the bit give one outcome, which is a next state where LEN fits. -/
theorem ecbIgnoresTheIvpBit : Obligations.EcbIgnoresTheIvpBit := by
  intro s hfits
  obtain ⟨t, ht⟩ := exec_completes (i := .encEcb true) (s := s) fun _ => hfits
  obtain ⟨u, hu⟩ := exec_completes (i := .decEcb true) (s := s) fun _ => hfits
  exact ⟨⟨t, t, ht, (messageCommand_ecb false true _ s).trans ht, rfl⟩,
    ⟨u, u, hu, (messageCommand_ecb false true _ s).trans hu, rfl⟩⟩

/-! ## The round trip on the hardware (R172) -/

/-- The first blocks of IBUF are those of OBUF when their bytes are the same. -/
theorem firstBlocks_eq_outBlocks_iff (s t : State) (n : Nat) :
    firstBlocks s n = outBlocks t n ↔ ∀ a, a < 16 * n → ibufByte s a = obufByte t a := by
  simp only [firstBlocks, outBlocks, List.map_inj_left, List.mem_range]
  constructor
  · intro h a ha
    have hblock := congrArg (·[a % 16]'(by omega)) (h (a / 16) (by omega))
    simpa [memRead, outBlock, Nat.div_add_mod] using hblock
  · intro h b hb
    apply Vector.ext
    intro k hk
    simpa [memRead, outBlock] using h (16 * b + k) (by omega)

/-- A message command that passes its checks completes only where LEN fits (spec/20_memory.md R53). -/
theorem len_le_bufBytes_of_next {needsIV ivp : Bool} {work : State → State} {s t : State}
    (hivp : needsIV = true → ivp = true) (h : Configured s) (hl : s.len.toNat % 16 = 0)
    (ht : messageCommand needsIV ivp work s = .next t) : s.len.toNat ≤ s.bufBytes := by
  by_contra hbeyond
  rw [messageCommand_beyond _ _ _ (Nat.not_le.1 hbeyond), if_neg (by simp [h.fields.1]), if_neg (by simp [hl]),
    if_neg fun ⟨hn, hf⟩ => by simp [hivp hn] at hf] at ht
  cases ht

/-- R172 for one pair of commands: run on what the first has left in OBUF, the second gives back the first one's
message. -/
def RoundTrip (enc dec : Instr) : Prop :=
  ∀ s t s', Configured s → s.len.toNat % 16 = 0 → exec enc s = .next t →
    s'.bufBytes = t.bufBytes → s'.cfg = t.cfg → s'.key = t.key → s'.iv = t.iv → s'.len = t.len →
    (∀ a, a < s.len.toNat → ibufByte s' a = obufByte t a) →
    ∃ u, exec dec s' = .next u ∧ u.status = 0 ∧ u.olen = s.len ∧ ∀ a, a < s.len.toNat → obufByte u a = ibufByte s a

/-- Two message commands make the round trip when the function of the second undoes that of the first, which keeps the
length: both run under one schedule and IV. -/
theorem roundTrip_of_messageRules {enc dec : Bool → Instr} {needsIV ivp : Bool} {work : State → State}
    {f g : List Byte → Nat → Block → List Block → List Block}
    (hf : MessageRule enc needsIV fun s => f (keySchedule s) (cfgNr s) s.iv (inBlocks s))
    (hg : MessageRule dec needsIV fun s => g (keySchedule s) (cfgNr s) s.iv (inBlocks s))
    (hlength : ∀ rk nr iv xs, (f rk nr iv xs).length = xs.length)
    (hinverse : ∀ rk nr iv xs, g rk nr iv (f rk nr iv xs) = xs)
    (hexec : ∀ s, exec (enc ivp) s = messageCommand needsIV ivp work s) (hivp : needsIV = true → ivp = true) :
    RoundTrip (enc ivp) (dec ivp) := by
  intro s t s' h hl henc hbuf hcfg hkey hiv hlen hread
  have hfits := len_le_bufBytes_of_next hivp h hl ((hexec s).symm.trans henc)
  obtain ⟨t', ht', hdone, -⟩ := hf.success ivp s hfits h hl hivp
  obtain rfl : t' = t := Host.Outcome.next.inj (ht'.symm.trans henc)
  replace hbuf := hbuf.trans hdone.operands.bufBytes
  replace hcfg := hcfg.trans hdone.cfg
  replace hkey := hkey.trans hdone.operands.key
  replace hiv := hiv.trans hdone.operands.iv
  replace hlen := hlen.trans hdone.operands.len
  have hblocks : blockCount s' = blockCount s := by rw [blockCount, hlen, blockCount]
  have hin : inBlocks s' = f (keySchedule s) (cfgNr s) s.iv (inBlocks s) := by
    rw [← hdone.output, hlength, inBlocks_length, ← hblocks]
    exact (firstBlocks_eq_outBlocks_iff s' t' _).2 fun a ha => hread a (by rwa [hblocks, blockCount_mul hl] at ha)
  obtain ⟨u, hu, hdone', -⟩ := hg.success ivp s' (by rwa [hlen, hbuf]) (by unfold Configured; rwa [hcfg])
    (by rwa [hlen]) hivp
  rw [hin, keySchedule_congr hcfg hkey, cfgNr_congr hcfg, hiv, hinverse] at hdone'
  have hout : firstBlocks s (blockCount s) = outBlocks u (blockCount s) := by
    rw [← inBlocks_length, hdone'.output, inBlocks_length]
    rfl
  refine ⟨u, hu, hdone'.status, hdone'.olen.trans hlen, fun a ha => ?_⟩
  exact ((firstBlocks_eq_outBlocks_iff s u _).1 hout a (by rwa [blockCount_mul hl])).symm

theorem ecb_roundTrip (ivp : Bool) : RoundTrip (.encEcb ivp) (.decEcb ivp) :=
  roundTrip_of_messageRules (f := fun rk nr _ => ecbEnc rk nr) (g := fun rk nr _ => ecbDec rk nr)
    encEcbCommandRule.2.2 decEcbCommandRule.2.2 (fun rk nr iv xs => by rw [ecbEnc_eq_map, List.length_map])
    (fun rk nr _ => ecbDec_ecbEnc rk nr) (fun _ => rfl) nofun

theorem cbc_roundTrip : RoundTrip (.encCbc true) (.decCbc true) :=
  roundTrip_of_messageRules encCbcCommandRule.2.2 decCbcCommandRule.2.2
    (fun rk nr iv xs => by rw [cbcEnc_eq_run, chainRun_length]) cbcDec_cbcEnc (fun _ => rfl) fun _ => rfl

theorem cfb_roundTrip : RoundTrip (.encCfb true) (.decCfb true) :=
  roundTrip_of_messageRules encCfbCommandRule.2.2 decCfbCommandRule.2.2
    (fun rk nr iv xs => by rw [cfbEnc_eq_run, chainRun_length]) cfbDec_cfbEnc (fun _ => rfl) fun _ => rfl

/-- Settles O40, pair by pair. -/
theorem messagesRoundTripOnTheHardware : Obligations.MessagesRoundTripOnTheHardware := by
  simp only [Obligations.MessagesRoundTripOnTheHardware, List.forall_mem_cons, List.not_mem_nil, false_imp_iff,
    forall_true_iff, and_true]
  exact ⟨ecb_roundTrip false, ecb_roundTrip true, cbc_roundTrip, cfb_roundTrip⟩

end Sys2Proof.Machine
end

