-- ==== Sys2Proof/Proofs/Exceptions.lean ====
section
/-! PROOFS. The statements of spec/60_exceptions.md: the length validation (O41), the two causes of InvalidKeyLength
(O42), the fixed order of the errors (O43) and the frame of a failing command (O45). CFG and three shapes of command
(KEXP, the single-block commands and the message commands) make up `exec`, so each fact is said once per shape. -/

namespace Sys2Proof.Machine

/-! ## The length validation (R184) -/

theorem lengthOk_iff_dvd (n : Nat) : lengthOk n = true ↔ 16 ∣ n :=
  (lengthOk_iff n).trans Nat.dvd_iff_mod_eq_zero.symm

/-- Settles O41: divisibility is remainder 0, and the examples are evaluated. -/
theorem lengthOkIsDivisibility : Obligations.LengthOkIsDivisibility :=
  ⟨lengthOk_iff_dvd, rfl, rfl, rfl, rfl, rfl, rfl⟩

/-! ## InvalidKeyLength (R181) -/

/-- A message command checks the configuration before it looks at LEN. -/
theorem messageCommand_of_not_valid (needsIV ivp : Bool) (work : State → State) {s : State} (h : cfgValid s = false) :
    messageCommand needsIV ivp work s = .next { s with status := 1, olen := 0 } := by
  simpa [h, raise_eq, errorCode] using messageCommand_cases needsIV ivp work s

/-- Without a configuration every command but CFG reports InvalidKeyLength, whatever else is wrong. -/
theorem exec_of_not_valid {i : Instr} {s : State} (hi : needsConfig i = true) (h : cfgValid s = false) :
    exec i s = .next { s with status := 1, olen := 0 } := by
  cases i with
  | cfg => cases hi
  | kexp => exact execKexp_of_not_valid h
  | encb => exact encbCommandRule.2.no_config s h
  | decb => exact decbCommandRule.2.no_config s h
  | encEcb | encCbc | encCfb | decEcb | decCbc | decCfb => exact messageCommand_of_not_valid _ _ _ h

/-- Settles O42: a length CFG does not accept, and a configuration that is missing, as it is after reset. -/
theorem invalidKeyLengthHasTwoCauses : Obligations.InvalidKeyLengthHasTwoCauses :=
  ⟨fun _ s h128 h192 h256 => execCfg_of_eq_none (deriveConfig_eq_none h128 h192 h256) s,
    fun _ _ => exec_of_not_valid, cfgValid_of_cfg_zero rfl⟩

/-! ## The order of the errors (R185, R188) -/

/-- CFG completes, with STATUS by the immediate. -/
theorem execCfg_status (bits : Nat) (s : State) :
    ∃ t, execCfg bits s = .next t ∧ t.status = if bits = 128 ∨ bits = 192 ∨ bits = 256 then 0 else 1 := by
  split_ifs with hbits
  · have hderive : ∃ p, deriveConfig bits = some p := by
      rcases hbits with rfl | rfl | rfl <;> exact ⟨_, rfl⟩
    obtain ⟨p, hp⟩ := hderive
    exact ⟨_, execCfg_of_eq_some hp s, rfl⟩
  · simp only [not_or] at hbits
    obtain ⟨h128, h192, h256⟩ := hbits
    exact ⟨_, execCfg_of_eq_none (deriveConfig_eq_none h128 h192 h256) s, rfl⟩

/-- STATUS by the first error that applies to a command which reads LEN or not, in a mode that needs an IV or not. -/
def firstErrorStatus (message needsIV ivp : Bool) (s : State) : Reg32 :=
  if cfgValid s = false then 1
  else if message = true ∧ s.len.toNat % 16 ≠ 0 then 2
  else if needsIV = true ∧ ivp = false then 3
  else 0

/-- A command that checks the configuration alone completes, with STATUS by that check. -/
theorem status_of_configCheck {o : Host.Outcome State Fault Refusal} {s u : State} {olen : Reg32}
    (h : (cfgValid s = false ∧ o = .next (raise .invalidKeyLength s)) ∨
      (cfgValid s = true ∧ o = .next (succeed olen u))) :
    ∃ t, o = .next t ∧ t.status = firstErrorStatus false false false s := by
  rcases h with ⟨hv, ho⟩ | ⟨hv, ho⟩
  · exact ⟨_, ho, by simp [firstErrorStatus, hv, errorCode]⟩
  · exact ⟨_, ho, by simp [firstErrorStatus, hv]⟩

/-- With LEN within BUF_BYTES a message command completes, with STATUS by the first of its three checks that fails. -/
theorem messageCommand_status (needsIV ivp : Bool) (work : State → State) {s : State} (h : s.len.toNat ≤ s.bufBytes) :
    ∃ t, messageCommand needsIV ivp work s = .next t ∧ t.status = firstErrorStatus true needsIV ivp s := by
  simp only [messageCommand_within _ _ _ h, firstErrorStatus, true_and]
  split_ifs <;> exact ⟨_, rfl, rfl⟩

/-- Every command but CFG, by the law of its shape. -/
theorem exec_status {i : Instr} {s : State} (hi : needsConfig i = true) (hfits : FitsBuffer i s) :
    ∃ t, exec i s = .next t ∧ t.status = firstErrorStatus (isMessage i) (requiresIV i) (givesIV i) s := by
  cases i with
  | cfg => cases hi
  | kexp => exact status_of_configCheck (execKexp_cases s)
  | encb => exact status_of_configCheck (blockCommand_cases cipher s)
  | decb => exact status_of_configCheck (blockCommand_cases invCipher s)
  | encEcb ivp | decEcb ivp => exact messageCommand_status false ivp _ (hfits rfl)
  | encCbc ivp | encCfb ivp | decCbc ivp | decCfb ivp => exact messageCommand_status true ivp _ (hfits rfl)

/-- Settles O43: an illegal word raises IllegalCommand, a legal one has the STATUS of its command. -/
theorem errorsAreReportedInOrder : Obligations.ErrorsAreReportedInOrder :=
  ⟨fun _ s ⟨_, hw⟩ => ⟨raise .illegalCommand s, hostCommand_of_decode_error hw s, rfl⟩,
    fun _ _ s hw => hostCommand_of_decode hw s, execCfg_status, fun _ _ => exec_status⟩

/-! ## The frame of a failing command (R186) -/

/-- A command that ends with STATUS not 0 has ended in the error entry. -/
theorem CommandEnds.eq_of_status_ne_zero {i : Instr} {s t : State} (h : CommandEnds i s t) (ht : t.status ≠ 0) :
    t = { s with status := t.status, olen := 0 } := by
  cases h with
  | error e => rfl
  | success olen fits work => exact absurd (succeed_status _ olen) ht

theorem execCfg_eq_of_status_ne_zero {bits : Nat} {s t : State} (h : execCfg bits s = .next t) (ht : t.status ≠ 0) :
    t = { s with cfg := 0, status := t.status, olen := 0 } := by
  rcases execCfg_next_cases h with ⟨v, -, rfl⟩ | rfl
  · exact absurd (succeed_status _ 0) ht
  · rfl

/-- Settles O45: by the way a command ends, CFG apart from the others. -/
theorem failingCommandsWriteOnlyStatusAndOlen : Obligations.FailingCommandsWriteOnlyStatusAndOlen := by
  intro i s t h ht
  split_ifs with hi
  · exact (exec_ends hi h).eq_of_status_ne_zero ht
  · cases i with
    | cfg bits => exact execCfg_eq_of_status_ne_zero h ht
    | _ => exact absurd rfl hi

end Sys2Proof.Machine
end

