-- ==== Sys2Proof/Proofs/Reset.lean ====
section
/-! PROOFS. The statement of spec/70_reset_and_hazards.md on reset (O60): the core comes out of it without a
configuration (R200), so that no command but CFG can do its work (R181). -/

namespace Sys2Proof.Machine

/-- A reset takes the configuration away, whatever it was (R24, R200). -/
theorem cfgValid_applyReset (s : State) : cfgValid (applyReset s) = false :=
  cfgValid_of_cfg_zero (applyReset_cfg s)

/-- Settles O60: the step is the reset on the rest of the queue, and a missing configuration is what every command but
CFG reports. -/
theorem resetClearsTheControlRegisters : Obligations.ResetClearsTheControlRegisters := by
  intro s rest hreset
  have hfail : ∀ i, needsConfig i = true → exec i (applyReset { s with inputs := rest }) =
      .next { applyReset { s with inputs := rest } with status := 1, olen := 0 } :=
    fun _ hi => exec_of_not_valid hi (cfgValid_applyReset _)
  exact ⟨_, step_reset hreset, applyReset_cfg _, applyReset_status _, applyReset_len _, applyReset_olen _,
    applyReset_inputs _, hfail⟩

end Sys2Proof.Machine
end

section
/-! PROOFS. The statement of spec/30_encoding.md that decoding undoes encoding (O2, R71 to R77). -/

namespace Sys2Proof.Machine

/-- Settles O2: command by command, by what `decode` answers on the format C of its opcode. The immediate of CFG is
kept because a well-formed one fits the 16 bits of its field. -/
theorem decodeOfEncodeIsTheCommand : Obligations.DecodeOfEncodeIsTheCommand :=
  fun _ => decode_encode

end Sys2Proof.Machine
end
